-- ==== Sys2Proof/Word.lean ====
section
/-!
DEFINITION. The word types of UVM20 (00_scope.md R15, R16). What the accumulator or one data-memory cell holds is an `Int`:
the signed integer that a W-bit two's-complement cell stands for. R9 lets a model hold cells so, beside the range premise of
R207; the range is `Config.InRange`, and that every step keeps it is part of `State.Inv` (DESIGN CHOICE, safe, log 4).
-/
namespace Sys2Proof

/-- A byte of the program image, bits 7 down to 0 (00_scope.md R15). -/
abbrev Byte := BitVec 8

/-- The opcode field A, 4 bits (30_encoding.md R83). -/
abbrev OpcodeField := BitVec 4

/-- The operand field B, 12 bits (30_encoding.md R84). No value of it is reserved or illegal for any instruction (R92). -/
abbrev Operand := BitVec 12

end Sys2Proof
end

