-- ==== Sys2Proof/Config.lean ====
section
/-!
DEFINITION. The implementation parameters of UVM20 (00_scope.md R8 to R11) and the one that the spec gives no value for.
-/
namespace Sys2Proof

/-- The parameters an implementation fixes. The spec takes each as an argument of every rule, so a machine's state carries
them as plain data that no step changes, and a statement about every state holds for every value of them (DESIGN
CHOICE, safe, log 1). -/
structure Config where
  /-- `CAPACITY`, the number of data-memory cells (R8). -/
  capacity : Nat
  /-- `CELL_BITS`, W: the width of a cell and of the accumulator (R9). -/
  cellBits : Nat
  /-- `WATCHDOG_LIMIT`, L: the most instructions one run may execute (R10, R112). -/
  watchdogLimit : Nat
  /-- `PC_BITS`, the width of the program counter, which bounds the images a host may load (R11). -/
  pcBits : Nat
deriving DecidableEq, Repr

/-- The constraints of R8, R9 and R10 on the parameters. -/
abbrev Config.Wf (c : Config) : Prop :=
  1 ≤ c.capacity ∧ 13 ≤ c.cellBits ∧ 1 ≤ c.watchdogLimit

/-- The least value a W-bit cell holds, `-2^(W-1)` (R9). -/
def Config.minCell (c : Config) : Int := -(2 ^ (c.cellBits - 1))

/-- The greatest value a W-bit cell holds, `2^(W-1) - 1` (R9). -/
def Config.maxCell (c : Config) : Int := 2 ^ (c.cellBits - 1) - 1

/-- The value fits a W-bit cell (R9, R207). -/
abbrev Config.InRange (c : Config) (v : Int) : Prop := c.minCell ≤ v ∧ v ≤ c.maxCell

/-- `WATCHDOG_LIMIT` less one, for the machine of `State.reset`: a value that nothing constrains. R10 gives the ceiling
no value and no default and asks only that it be at least 1 (DESIGN CHOICE, safe, log 2). -/
opaque Config.openWatchdogLessOne : Nat

/-- The parameters of the machine right after reset: the capacity 65536 of R8, the widths that R9 and R11 recommend
(DESIGN CHOICE, unsafe, log 3) and a watchdog ceiling of which nothing is known but that it is at least 1 (log 2). -/
def Config.standard : Config :=
  { capacity := 65536, cellBits := 32, watchdogLimit := Config.openWatchdogLessOne + 1, pcBits := 32 }

end Sys2Proof
end

