-- ==== Sys2Proof/Syntax.lean ====
section
/-!
DEFINITION. The four instructions of UVM20 (00_scope.md R1, 30_encoding.md R86), one constructor per row of the opcode
table. Each carries the decoded operand B (R18, R84); the reserved byte 2 carries nothing (R85).
-/
namespace Sys2Proof

/-- An instruction, as the decoder and the dispatch table deliver it. -/
inductive Instr where
  /-- LOAD_MEM: B is an unsigned offset added to the accumulator (R135). -/
  | loadMem (b : Operand)
  /-- SQRT: B is the absolute destination address (R150). -/
  | sqrt (b : Operand)
  /-- LOAD_CONST: B is the constant (R130). -/
  | loadConst (b : Operand)
  /-- STORE_MEM: B is the absolute destination address (R140). -/
  | storeMem (b : Operand)
deriving DecidableEq, Repr

/-- The operand B of an instruction (R92). -/
def Instr.operand : Instr → Operand
  | .loadMem b => b
  | .sqrt b => b
  | .loadConst b => b
  | .storeMem b => b

end Sys2Proof
end

