-- ==== Sys2Proof/WellFormed.lean ====
section
/-!
DEFINITION. What the host's inputs and an instruction's bytes must satisfy. No instruction is ill-formed: the operand type
holds exactly the integers 0 to 4095, all of them legal for all four instructions (30_encoding.md R92). The checks are
those of a launch (00_scope.md R8 to R11, 70_reset_and_hazards.md R205 to R207) and of a canonical instruction word (R91).
-/
namespace Sys2Proof

/-- Memory initialisation data: a finite mapping from addresses to integers, as its entries (R204, R206). An address is an
integer here because R207 speaks of addresses outside the memory, negative ones among them. -/
abbrev InitData := List (Int × Int)

namespace WellFormed

/-- The parameters meet R8, R9 and R10. -/
def config (c : Config) : Bool := decide c.Wf

/-- The host's duty on the image, `IMG_LEN < 2^PC_BITS` (R11, R205). -/
def image (c : Config) (img : List Byte) : Bool := decide (img.length < 2 ^ c.pcBits)

/-- Every initialisation address lies in 0 to `CAPACITY - 1` (R207). -/
def initAddresses (c : Config) (init : InitData) : Bool :=
  init.all fun e => decide (0 ≤ e.1 ∧ e.1 < (c.capacity : Int))

/-- Every initialisation value fits a cell (R207). -/
def initValues (c : Config) (init : InitData) : Bool := init.all fun e => decide (c.InRange e.2)

/-- No address is named twice: "a mapping has each key once" (R206). -/
def initKeys : InitData → Bool
  | [] => true
  | e :: rest => rest.all (fun f => decide (f.1 ≠ e.1)) && initKeys rest

/-- The reserved byte is 0, as the encoder writes it (R85, R95). -/
def reservedByte (byte2 : Byte) : Bool := decide (byte2 = 0)

end WellFormed

end Sys2Proof
end

