-- ==== Sys2Proof/Decode.lean ====
section
/-!
DEFINITION. The 3-byte unpacker, the opcode dispatch table, the decoder and the encoder (30_encoding.md R80 to R95,
40_fetch_decode_dispatch.md R114 to R116).
-/
namespace Sys2Proof

/-- The names of the Opcode Table (R86), a closed enumeration. -/
inductive Opcode where
  | loadMem
  | sqrt
  | loadConst
  | storeMem
deriving DecidableEq, Repr

/-- The instruction with this opcode and operand. -/
def Opcode.instr : Opcode → Operand → Instr
  | .loadMem, b => .loadMem b
  | .sqrt, b => .sqrt b
  | .loadConst, b => .loadConst b
  | .storeMem, b => .storeMem b

/-- The 16-entry dispatch table of R86, entry A at position A; `none` is "illegal" (R88). -/
def dispatchTable : List (Option Opcode) :=
  [ some .loadMem,      -- 0
    none,               -- 1
    some .sqrt,         -- 2
    none,               -- 3
    none,               -- 4
    none,               -- 5
    none,               -- 6
    none,               -- 7
    none,               -- 8
    none,               -- 9
    some .loadConst,    -- 10
    none,               -- 11
    none,               -- 12
    none,               -- 13
    some .storeMem,     -- 14
    none ]              -- 15

/-- Dispatch (R116): the operand goes to the selected operation unchanged; for an illegal opcode it is discarded. -/
def dispatch (a : OpcodeField) (b : Operand) : Option Instr :=
  match dispatchTable[a.toNat]? with
  | some (some op) => some (op.instr b)
  | _ => none

/-- `A = byte0[7:4]` (R83). -/
def opcodeField (byte0 : Byte) : OpcodeField := byte0.extractLsb' 4 4

/-- `B = byte0[3:0] * 256 + byte1` (R84). -/
def operandField (byte0 byte1 : Byte) : Operand := byte0.extractLsb' 0 4 ++ byte1

/-- What the decoder answers at an offset of an image (R115): "end of program", or the two fields as found. -/
inductive Window where
  | endOfProgram
  | fields (a : OpcodeField) (b : Operand)
deriving DecidableEq, Repr

/-- The unpacker on the bytes that lie at an offset (R114): byte 2 is fetched, counts toward the three bytes that must
remain, and is not examined (R85). -/
def unpack : List Byte → Window
  | byte0 :: byte1 :: _byte2 :: _ => .fields (opcodeField byte0) (operandField byte0 byte1)
  | _ => .endOfProgram

/-- The decoder's interface (R115): the image and an offset; defined at every offset, not only at multiples of 3. -/
def decodeAt (img : List Byte) (off : Nat) : Window := unpack (img.drop off)

/-- Why a byte sequence holds no instruction. -/
inductive DecodeError where
  /-- Fewer than 3 bytes remain (R115). -/
  | endOfProgram
  /-- The opcode A is not in the Opcode Table (R88). -/
  | illegalOpcode (a : OpcodeField)
deriving DecidableEq, Repr

/-- The decoder and the dispatch table together, on any bytes: the instruction and the bytes after it, or why not (R90). -/
def decode (bytes : List Byte) : Except DecodeError (Instr × List Byte) :=
  match unpack bytes with
  | .endOfProgram => .error .endOfProgram
  | .fields a b =>
    match dispatch a b with
    | some i => .ok (i, bytes.drop 3)
    | none => .error (.illegalOpcode a)

/-! The encoder, outside the block (R6 (c)), given by R95. -/

/-- The code of an instruction in the Opcode Table (R86). -/
def Instr.opcode : Instr → OpcodeField
  | .loadMem _ => 0
  | .sqrt _ => 2
  | .loadConst _ => 10
  | .storeMem _ => 14

/-- The Binary Encoder (R95): any opcode number and any integer operand; the operand keeps its low 12 bits, negative
operands included. -/
def encodeFields (a : OpcodeField) (operand : Int) : List Byte :=
  let b := (operand % 4096).toNat
  [BitVec.ofNat 8 (a.toNat * 16 + b / 256), BitVec.ofNat 8 (b % 256), 0]

/-- The three bytes of an instruction. -/
def encode (i : Instr) : List Byte := encodeFields i.opcode (i.operand.toNat : Int)

/-! The table's view of an instruction as the 24-bit word `I = byte0 * 65536 + byte1 * 256 + byte2` (R15, R82). -/

/-- The three bytes of the 24-bit word whose low `nbits` bits are those of `w` and whose other bits are 0, byte 0 (the
most significant, R15) first (DEDUCED, safe, log 10). -/
def wordBytes (nbits w : Nat) : List Byte :=
  let i := w % 2 ^ nbits
  [BitVec.ofNat 8 (i / 65536), BitVec.ofNat 8 (i / 256), BitVec.ofNat 8 i]

/-- The instruction the decoder reads from the bytes of a word numbered as spec/opcode_table.json numbers it. -/
def decodeTableWord (nbits w : Nat) : Option Instr :=
  match decode (wordBytes nbits w) with
  | .ok (i, _) => some i
  | .error _ => none

end Sys2Proof
end

