-- ==== Sys2Proof/Machine/State.lean ====
section
/-!
DEFINITION. The state of UVM20 (10_state.md R20 to R36) as plain data, the ways a step can stop, and the state after reset
(R37, 70_reset_and_hazards.md R200).
-/
namespace Sys2Proof.Machine

/-- The engine's two states (R27). -/
inductive RunState where
  | running
  | halted
deriving DecidableEq, Repr

/-- Which halt condition ended the run (R28, R169). -/
inductive HaltCause where
  /-- `NONE`: running. -/
  | none
  /-- `END_OF_IMAGE`: normal termination (R166). -/
  | endOfImage
  /-- `ILLEGAL_OPCODE`: a corrupt image (R167). -/
  | illegalOpcode
  /-- `WATCHDOG`: the safety ceiling (R168). -/
  | watchdog
deriving DecidableEq, Repr

/-- The kinds of diagnostic event (R35). -/
inductive DiagKind where
  | oobLoad
  | oobStore
  | oobSqrt
  | illegalOpcode
  | watchdog
  | truncatedImage
deriving DecidableEq, Repr

/-- One entry of the diagnostic log: the kind and the program counter of the instruction concerned (R35, R179). -/
structure Event where
  kind : DiagKind
  pc : Nat
deriving DecidableEq, Repr

/-- Data memory as the list of its (address, cell value) pairs in one canonical form (`Memory.Wf`): addresses strictly
rising, no cell listed that holds what an unlisted one reads as. An address is a cell index and a cell is one integer;
the spec has no byte view of data memory (R29, R57; DESIGN CHOICE, safe, log 5). -/
abbrev Memory := List (Nat × Int)

/-- What a cell reads as that nothing has written: memory is zero-initialised (R31). -/
def Memory.unlisted : Int := 0

/-- The canonical form: equal memories are equal lists. -/
abbrev Memory.Wf (m : Memory) : Prop :=
  m.Pairwise (fun e f => e.1 < f.1) ∧ ∀ e ∈ m, e.2 ≠ Memory.unlisted

/-- Why there is no next state though nothing was refused. Neither is an error of the machine. -/
inductive Fault where
  /-- Raised by `step` in a state with `RUN = HALTED`: there is no step, and the state stays as it is until the next reset
  (R110, R178). Stuck, by the spec's own words. How the run ended is in `State.haltCause`. Safe: the model has no step
  where the hardware has none (DESIGN CHOICE, log 8). -/
  | halted
  /-- Raised by `step` between reset and start, when no image has been delivered: "the engine takes no step" (R200, R213).
  Safe: the model has no step where the hardware has none (DESIGN CHOICE, log 6). -/
  | notLaunched
deriving DecidableEq, Repr

/-- Inputs that the model gives no meaning. All but the first are raised by the host's operations (Machine/Launch.lean),
never by `exec` or `step`, and each follows the spec's own refusal or "must not"; all are safe (DESIGN CHOICE, log 12,
log 13). -/
inductive Refusal where
  /-- Raised by an arm of `exec` for an instruction that has no meaning yet. No arm does so now. Safe. -/
  | notModelled (mnemonic : String)
  /-- A launch with parameters outside R8, R9 or R10. Safe. -/
  | badParameters
  /-- A launch with `IMG_LEN >= 2^PC_BITS` (R11, R205). Safe. -/
  | imageTooLong
  /-- A launch whose initialisation data names an address outside the memory (R207). Safe. -/
  | initAddressOutOfRange
  /-- A launch whose initialisation data holds a value that fits no cell (R207). Safe. -/
  | initValueOutOfRange
  /-- A launch whose initialisation data names an address twice, which is no mapping (R206). Safe. -/
  | initAddressRepeated
  /-- A launch of a machine that has been launched since its last reset (R201). Safe. -/
  | alreadyLaunched
  /-- A host operation while `RUN = RUNNING`, which the spec does not model (R185, R213). Safe. -/
  | hostDuringRun
deriving DecidableEq, Repr

/-- Everything the spec gives the machine (R20, R34, R35), and the parameters every rule takes (R8 to R11). -/
structure State where
  /-- The implementation parameters: no step changes them (DESIGN CHOICE, safe, log 1). -/
  cfg : Config
  /-- `ACC` (R21), as `sint(ACC)`. -/
  acc : Int
  /-- `pc`, the byte offset into the image of the next instruction (R23). -/
  pc : Nat
  /-- `ICOUNT`, the executed-instruction counter (R26). -/
  icount : Nat
  /-- `RUN` (R27). -/
  run : RunState
  /-- `HALT_CAUSE` (R28). -/
  haltCause : HaltCause
  /-- `MEM` (R29). -/
  mem : Memory
  /-- `DIAG`, oldest event first (R35). -/
  diag : List Event
  /-- `IMG`, the bytes at offsets 0 to `IMG_LEN - 1` (R34); `none` while no image is loaded (R200; DESIGN CHOICE, safe,
  log 6). -/
  img : Option (List Byte)
deriving DecidableEq, Repr

/-- The state right after reset of a machine with these parameters (R37, R200). `RUN` has no architectural value between
reset and start: the first one it has, RUNNING, stands here already (DESIGN CHOICE, unsafe, log 7). -/
def State.resetWith (c : Config) : State :=
  { cfg := c, acc := 0, pc := 0, icount := 0, run := .running, haltCause := .none, mem := [], diag := [], img := none }

/-- The machine right after reset (R200). -/
def State.reset : State := State.resetWith Config.standard

/-- The image's bytes; none while no image is loaded. -/
def State.imgBytes (s : State) : List Byte := s.img.getD []

/-- `IMG_LEN` (R12). -/
def State.imgLen (s : State) : Nat := s.imgBytes.length

end Sys2Proof.Machine
end

