-- ==== Sys2Proof/Machine/Ops.lean ====
section
/-!
DEFINITION. The named operations over memory, registers, the log and the image (00_scope.md R17), the halt
(60_exceptions.md R176) and the common end of an instruction (40_fetch_decode_dispatch.md R120).
-/
namespace Sys2Proof.Machine

/-! Data memory. -/

/-- The value of a cell. -/
def Memory.read : Memory → Nat → Int
  | [], _ => Memory.unlisted
  | (x, v) :: m, a => if x = a then v else Memory.read m a

/-- The memory with a cell unlisted. -/
def Memory.erase : Memory → Nat → Memory
  | [], _ => []
  | (x, v) :: m, a => if x = a then Memory.erase m a else (x, v) :: Memory.erase m a

/-- The memory with an entry put before the first one of a greater address. -/
def Memory.insert : Memory → Nat → Int → Memory
  | [], a, w => [(a, w)]
  | (x, v) :: m, a, w => if a < x then (a, w) :: (x, v) :: m else (x, v) :: Memory.insert m a w

/-- The memory with a cell set. Writing what an unlisted cell reads as unlists the cell. -/
def Memory.write (m : Memory) (a : Nat) (w : Int) : Memory :=
  if w = Memory.unlisted then m.erase a else (m.erase a).insert a w

/-- `MemRead(a, 1)` (R17, R59): one whole cell. Every rule tests the bounds before it reads (R58). -/
def State.memRead (s : State) (a : Nat) : Int := s.mem.read a

/-- `MemWrite(a, 1, v)` (R17, R59): one whole cell. Every rule tests the bounds before it writes (R58). -/
def State.memWrite (s : State) (a : Nat) (v : Int) : State := { s with mem := s.mem.write a v }

/-! The accumulator and the log. -/

/-- `ACC <- v` (R17, R21). -/
def State.setAcc (s : State) (v : Int) : State := { s with acc := v }

/-- `Diag(kind)`: the event `(kind, pc)` is appended, with pc as it is before the step changes it (R17, R35). -/
def State.appendDiag (s : State) (kind : DiagKind) : State := { s with diag := s.diag ++ [⟨kind, s.pc⟩] }

/-! How a step ends. -/

/-- `raise Halt(cause)` (R176): `RUN` and `HALT_CAUSE` are written and nothing else changes; nothing is saved, there is no
handler, and the program counter stays. -/
def State.raiseHalt (s : State) (cause : HaltCause) : State := { s with run := .halted, haltCause := cause }

/-- The halt at the end of the image: no event (R111, R166). -/
def State.haltEndOfImage (s : State) : State := s.raiseHalt .endOfImage

/-- The watchdog's halt (R112, R168). -/
def State.haltWatchdog (s : State) : State := (s.appendDiag .watchdog).raiseHalt .watchdog

/-- The halt on an illegal opcode (R167). -/
def State.haltIllegalOpcode (s : State) : State := (s.appendDiag .illegalOpcode).raiseHalt .illegalOpcode

/-- The common end of every executed instruction, out-of-bounds arms included (R120):
`pc <- pc + 3 ; ICOUNT <- ICOUNT + 1`. -/
def State.complete (s : State) : State := { s with pc := s.pc + 3, icount := s.icount + 1 }

/-! The program image. -/

/-- The image with these bytes at an offset: bytes before the offset that the image does not have are 0, and the rest of
the image stays. It is what stands for the host's load of one instruction (DESIGN CHOICE, unsafe if taken for a
step, log 9). -/
def placeBytes (img : List Byte) (off : Nat) (bytes : List Byte) : List Byte :=
  (img ++ List.replicate (off - img.length) 0).take off ++ bytes ++ img.drop (off + bytes.length)

/-- The state ready to fetch a given instruction word in its next step: the word lies in the image at `pc`, the engine
runs, and the watchdog has not expired. A state that meets one of these already keeps it as it is (log 9). -/
def State.placeWord (s : State) (nbits w : Nat) : State :=
  { s with
    img := some (placeBytes s.imgBytes s.pc (wordBytes nbits w))
    run := .running
    haltCause := .none
    icount := if s.icount < s.cfg.watchdogLimit then s.icount else 0 }

end Sys2Proof.Machine
end

