-- ==== Sys2Proof/Machine/Flags.lean ====
section
/-!
DEFINITION. The machine has no flags, condition codes or predicates (10_state.md R32), so there is no flag computation.
What it records instead are `RUN`, `HALT_CAUSE` and the kinds of event; the spec's numbers for them (R27, R28, R35) are
labels for the host's view that nothing in a step uses (92_eei_decisions.md D10).
-/
namespace Sys2Proof.Machine

/-- R27. -/
def RunState.code : RunState → BitVec 1
  | .running => 0
  | .halted => 1

/-- R28. -/
def HaltCause.code : HaltCause → BitVec 2
  | .none => 0
  | .endOfImage => 1
  | .illegalOpcode => 2
  | .watchdog => 3

/-- R35. -/
def DiagKind.code : DiagKind → Nat
  | .oobLoad => 1
  | .oobStore => 2
  | .oobSqrt => 3
  | .illegalOpcode => 4
  | .watchdog => 5
  | .truncatedImage => 6

end Sys2Proof.Machine
end

