-- ==== Sys2Proof/Machine/Operands.lean ====
section
/-!
DEFINITION. The operand forms: an operand as a value, as an absolute address, as an offset from the accumulator, and the
accumulator as an address (20_memory.md R51, 30_encoding.md R92); and the bounds test every data access passes (R58).
-/
namespace Sys2Proof.Machine

/-- `zext_W(B)`: the cell that holds the non-negative integer B (00_scope.md R16). -/
def zext (b : Operand) : Int := (b.toNat : Int)

/-- The operand as an absolute cell address (STORE_MEM, and SQRT's destination): zero-extended, never negative (R51, R141). -/
def absoluteAddress (b : Operand) : Int := (b.toNat : Int)

/-- The accumulator as an address (SQRT's source): `sint(ACC)`, which may be negative (R51). -/
def accAddress (s : State) : Int := s.acc

/-- LOAD_MEM's address `sint(ACC) + B`: the exact integer, never wrapped (R51, R135). -/
def loadAddress (b : Operand) (s : State) : Int := s.acc + (b.toNat : Int)

/-- The bounds test (R58): `0 <= a < CAPACITY`, on the exact integer. -/
def inBounds (c : Config) (a : Int) : Bool := decide (0 ≤ a ∧ a < (c.capacity : Int))

end Sys2Proof.Machine
end

