-- ==== Sys2Proof/Machine/LoadConst.lean ====
section
/-!
DEFINITION. LOAD_CONST (41_load_const.md).
-/
namespace Sys2Proof.Machine

/-- LOAD_CONST (R130): `ACC <- zext_W(B)`. -/
def execLoadConst (b : Operand) (s : State) : Host.Outcome State Fault Refusal :=
  .next (s.setAcc (zext b)).complete

end Sys2Proof.Machine
end

