-- ==== Sys2Proof/Machine/LoadStore.lean ====
section
/-!
DEFINITION. LOAD_MEM and STORE_MEM (42_load_mem_store_mem.md).
-/
namespace Sys2Proof.Machine

/-- LOAD_MEM (R135): the cell at `sint(ACC) + B`; out of bounds the event OOB_LOAD and the value 0 (R171). -/
def execLoadMem (b : Operand) (s : State) : Host.Outcome State Fault Refusal :=
  let ea := loadAddress b s
  if inBounds s.cfg ea then .next (s.setAcc (s.memRead ea.toNat)).complete
  else .next ((s.appendDiag .oobLoad).setAcc 0).complete

/-- STORE_MEM (R140): the whole accumulator into cell B; out of bounds the event OOB_STORE and no write (R172). -/
def execStoreMem (b : Operand) (s : State) : Host.Outcome State Fault Refusal :=
  let ea := absoluteAddress b
  if inBounds s.cfg ea then .next (s.memWrite ea.toNat s.acc).complete
  else .next (s.appendDiag .oobStore).complete

end Sys2Proof.Machine
end

