-- ==== Sys2Proof/Machine/Arith.lean ====
section
/-!
DEFINITION. The arithmetic of SQRT (43_sqrt.md R151, R152): the only arithmetic there is beside LOAD_MEM's address sum (R155).
-/
namespace Sys2Proof.Machine

/-- `abs(v)` as a mathematical integer, so that the most negative cell has the magnitude `2^(W-1)` (R152). -/
def magnitude (v : Int) : Nat := v.natAbs

/-- What R151 defines `isqrt(n)` by: r is the integer floor of the square root of n. -/
abbrev IsFloorSqrt (n r : Nat) : Prop := r * r ≤ n ∧ n < (r + 1) * (r + 1)

/-- Integer square root of a number below `4^k`, two bits of it a round. -/
def isqrtRounds : Nat → Nat → Nat
  | 0, _ => 0
  | k + 1, n =>
    let r := 2 * isqrtRounds k (n / 4)
    if (r + 1) * (r + 1) ≤ n then r + 1 else r

/-- `isqrt(n)` (R151): exact for every n. -/
def isqrt (n : Nat) : Nat := isqrtRounds (n.log2 / 2 + 1) n

end Sys2Proof.Machine
end

