-- ==== Sys2Proof/Machine/Sqrt.lean ====
section
/-!
DEFINITION. SQRT (43_sqrt.md).
-/
namespace Sys2Proof.Machine

/-- SQRT (R150): both addresses are tested first; then the source is read, and then the destination is written. With
either address out of bounds, one event OOB_SQRT, no read and no write (R173). -/
def execSqrt (b : Operand) (s : State) : Host.Outcome State Fault Refusal :=
  let src := accAddress s
  let dst := absoluteAddress b
  if inBounds s.cfg src && inBounds s.cfg dst then
    let v := s.memRead src.toNat
    let r := isqrt (magnitude v)
    .next (s.memWrite dst.toNat (r : Int)).complete
  else .next (s.appendDiag .oobSqrt).complete

end Sys2Proof.Machine
end

