-- ==== Sys2Proof/Machine/Dispatch.lean ====
section
/-!
DEFINITION. One arm per row of the opcode table (40_fetch_decode_dispatch.md R110 line 5, R116): the instruction's own
effect and the common end of R120. The tests before it (lines 1 to 4) are the engine's (Machine/Engine.lean).
-/
namespace Sys2Proof.Machine

def exec (i : Instr) (s : State) : Host.Outcome State Fault Refusal :=
  match i with
  | .loadMem b => Sys2Proof.Machine.execLoadMem b s
  | .sqrt b => Sys2Proof.Machine.execSqrt b s
  | .loadConst b => Sys2Proof.Machine.execLoadConst b s
  | .storeMem b => Sys2Proof.Machine.execStoreMem b s

end Sys2Proof.Machine
end

