-- ==== Sys2Proof/Machine/Engine.lean ====
section
/-!
DEFINITION. The engine's step on a running, launched machine: fetch, decode, dispatch (40_fetch_decode_dispatch.md R110).
-/
namespace Sys2Proof.Machine

/-- One pass of the loop of R110 on an image. The end-of-image test, the fetch and the unpacking (lines 1, 3 and 4) are the
decoder called at `pc` (R115); the watchdog test (line 2) comes before the opcode is looked at, so the tests rank as R117
has them; a halting step changes only `RUN`, `HALT_CAUSE` and `DIAG`. -/
def engineStep (img : List Byte) (s : State) : Host.Outcome State Fault Refusal :=
  match decodeAt img s.pc with
  | .endOfProgram => .next s.haltEndOfImage
  | .fields a b =>
    if s.cfg.watchdogLimit ≤ s.icount then .next s.haltWatchdog
    else
      match dispatch a b with
      | none => .next s.haltIllegalOpcode
      | some i => exec i s

/-- A step (R110, R178, R200): none in the halted state, none before an image has been delivered. -/
def machineStep (s : State) : Host.Outcome State Fault Refusal :=
  match s.run with
  | .halted => .fault .halted
  | .running =>
    match s.img with
    | none => .fault .notLaunched
    | some img => engineStep img s

end Sys2Proof.Machine
end

