-- ==== Sys2Proof/Machine/Step.lean ====
section
/-!
DEFINITION. The step of the machine, and the state whose next step fetches a given word.
-/
namespace Sys2Proof.Machine

/-- One step of the one agent (40_fetch_decode_dispatch.md R110). -/
def step (s : State) : Host.Outcome State Fault Refusal := machineStep s

/-- The state with an instruction word stored where `step` fetches its next instruction (DESIGN CHOICE, unsafe if taken
for a step, log 9). -/
def State.withFetchWord (s : State) (nbits w : Nat) : State := s.placeWord nbits w

end Sys2Proof.Machine
end

