-- ==== Sys2Proof/Machine/Assembler.lean ====
section
/-!
DEFINITION. The assembler's path from a program description to a program image (30_encoding.md R95 to R99). It is outside
the block (00_scope.md R6) and no step uses it; the spec gives what it does, so the images it makes can be spoken of.
-/
namespace Sys2Proof.Machine

/-- One instruction of a program description: "mnemonic ..., operand (integer), optional free-text comment" (R96). -/
structure SourceInstr where
  mnemonic : String
  operand : Int
  comment : Option String
deriving DecidableEq, Repr

/-- An Intermediate Command: "numeric opcode (0–15), operand (integer), comment" (R97). -/
structure Command where
  opcode : OpcodeField
  operand : Int
  comment : Option String
deriving DecidableEq, Repr

/-- The translation's one failure (R99). -/
inductive TranslationError where
  | unknownMnemonic (mnemonic : String)
deriving DecidableEq, Repr

/-- The Opcode Table from mnemonic to code (R86, R96): the four strings, spelled exactly so. -/
def mnemonicCode (m : String) : Option OpcodeField :=
  if m = "LOAD_CONST" then some 10
  else if m = "LOAD_MEM" then some 0
  else if m = "STORE_MEM" then some 14
  else if m = "SQRT" then some 2
  else none

/-- Translation, one to one and order-preserving; an unknown mnemonic aborts all of it (R97, R99). -/
def translateProgram : List SourceInstr → Except TranslationError (List Command)
  | [] => .ok []
  | i :: rest =>
    match mnemonicCode i.mnemonic with
    | none => .error (.unknownMnemonic i.mnemonic)
    | some code =>
      match translateProgram rest with
      | .error e => .error e
      | .ok cs => .ok ({ opcode := code, operand := i.operand, comment := i.comment } :: cs)

/-- The image of a command list: "the ordered concatenation of per-command encodings" (R95). -/
def commandsImage : List Command → List Byte
  | [] => []
  | c :: rest => encodeFields c.opcode c.operand ++ commandsImage rest

/-- The program image of a description (R95 to R97, R99). -/
def assemble (prog : List SourceInstr) : Except TranslationError (List Byte) :=
  match translateProgram prog with
  | .error e => .error e
  | .ok cs => .ok (commandsImage cs)

/-- The greatest operand the validator expects of an instruction with this opcode (R98). -/
def softLimit (code : OpcodeField) : Int :=
  if code = 10 ∨ code = 0 then 8191 else 4095

/-- The validator's warnings: the positions of the commands whose operand lies outside the expected range. Warnings reject
nothing (R98). That they are positions in program order is the model's choice (DESIGN CHOICE, safe, log 14). -/
def rangeWarnings (cs : List Command) : List Nat :=
  (cs.zipIdx.filter fun c => !decide (0 ≤ c.1.operand ∧ c.1.operand ≤ softLimit c.1.opcode)).map (·.2)

end Sys2Proof.Machine
end

