-- ==== Sys2Proof/Machine/Launch.lean ====
section
/-!
DEFINITION. What the host does before a run: reset and launch (70_reset_and_hazards.md R200 to R209).
-/
namespace Sys2Proof.Machine

/-- Memory after reset with the initialisation data assigned to it, cell by cell, over the zeros of reset (R206). -/
def initMemory (init : InitData) : Memory :=
  init.foldl (fun m e => m.write e.1.toNat e.2) []

/-- The log at launch: `TRUNCATED_IMAGE` when the image's length is no multiple of 3 (R204, R205). -/
def launchDiag (img : List Byte) : List Event :=
  if img.length % 3 = 0 then [] else [⟨.truncatedImage, 0⟩]

/-- The first architectural state of a run (R204), every part of it named. -/
def launchState (c : Config) (img : List Byte) (init : InitData) : State :=
  { cfg := c, acc := 0, pc := 0, icount := 0, run := .running, haltCause := .none, mem := initMemory init,
    diag := launchDiag img, img := some img }

/-- `Launch(IMG, INIT)` (R204) with the refusals of R205 to R207: of several defects the first of this list is named,
which nothing can observe (DESIGN CHOICE, safe, log 12). -/
def launch (c : Config) (img : List Byte) (init : InitData) : Host.Outcome State Fault Refusal :=
  if !WellFormed.config c then .refused .badParameters
  else if !WellFormed.image c img then .refused .imageTooLong
  else if !WellFormed.initAddresses c init then .refused .initAddressOutOfRange
  else if !WellFormed.initValues c init then .refused .initValueOutOfRange
  else if !WellFormed.initKeys init then .refused .initAddressRepeated
  else .next (launchState c img init)

/-- The host's launch of a machine as it stands: only one that has not been launched since its reset (R201). -/
def hostLaunch (s : State) (img : List Byte) (init : InitData) : Host.Outcome State Fault Refusal :=
  if s.img.isSome then .refused .alreadyLaunched else launch s.cfg img init

/-- The host's reset: total, no state survives (R200); not modelled while a run is going on (R185, R213). -/
def hostReset (s : State) : Host.Outcome State Fault Refusal :=
  if s.img.isSome && decide (s.run = .running) then .refused .hostDuringRun
  else .next (State.resetWith s.cfg)

end Sys2Proof.Machine
end

