-- ==== Sys2Proof/Machine/Readback.lean ====
section
/-!
DEFINITION. What the host reads after the halt: state, execution result, memory snapshot (70_reset_and_hazards.md R211,
R212).
-/
namespace Sys2Proof.Machine

/-- The execution result, the pair `(HALT_CAUSE, DIAG)` (R211), readable after the halt only. -/
def executionResult (s : State) : Host.Outcome (HaltCause × List Event) Fault Refusal :=
  match s.run with
  | .running => .refused .hostDuringRun
  | .halted => .next (s.haltCause, s.diag)

/-- Everything the host may read after the halt, and only then (R211); reading changes nothing. -/
structure Readback where
  mem : Memory
  acc : Int
  pc : Nat
  icount : Nat
  haltCause : HaltCause
  diag : List Event
deriving DecidableEq, Repr

/-- The readback (R211). -/
def readback (s : State) : Host.Outcome Readback Fault Refusal :=
  match s.run with
  | .running => .refused .hostDuringRun
  | .halted =>
    .next { mem := s.mem, acc := s.acc, pc := s.pc, icount := s.icount, haltCause := s.haltCause, diag := s.diag }

/-- A bound of a snapshot's range, clamped to 0 to `CAPACITY` (R212). -/
def clamp (c : Config) (a : Int) : Nat := (max 0 (min a (c.capacity : Int))).toNat

/-- The cells of a memory from `lo` up to but not including `hi` that do not hold 0. The list has them
by rising address; the spec's map has no order (R212, 91_not_in_source.md N14), so the order is the model's choice (DESIGN
CHOICE, unsafe for a claim about the order, log 18). -/
def nonzeroCells (m : Memory) (lo hi : Nat) : List (Nat × Int) :=
  m.filter fun e => decide (lo ≤ e.1 ∧ e.1 < hi)

/-- `Snapshot(start, stop)` (R212): the nonzero cells of the clamped range, keyed by address; the empty mapping when there
are none. Taken after the halt only (R213). The mapping is given as a list, whose order is the model's choice (log 18). -/
def snapshot (s : State) (start stop : Int) : Host.Outcome (List (Nat × Int)) Fault Refusal :=
  match s.run with
  | .running => .refused .hostDuringRun
  | .halted => .next (nonzeroCells s.mem (clamp s.cfg start) (clamp s.cfg stop))

end Sys2Proof.Machine
end

