-- ==== Sys2Proof/Safety.lean ====
section
/-!
DEFINITION. Runs, how they end, and the invariants of the machine, in the terms the statements use (10_state.md R25, R28,
R30; 60_exceptions.md R189; 70_reset_and_hazards.md R204, R210).
-/
namespace Sys2Proof.Machine

/-- Where a machine stands after at most n steps: it stays where there is no step (R204). -/
def runFor : Nat → State → State
  | 0, s => s
  | n + 1, s =>
    match step s with
    | .next t => runFor n t
    | .fault _ => s
    | .refused _ => s

/-- The most steps a run takes, the halting one included (R122). -/
def State.stepBound (s : State) : Nat := min (s.imgLen / 3) s.cfg.watchdogLimit + 1

/-- Where the run from a state ends (R210): within the bound of R122. -/
def State.final (s : State) : State := runFor s.stepBound s

/-- The run ended normally, whatever the log holds (R189). -/
abbrev State.EndedNormally (s : State) : Prop := s.run = .halted ∧ s.haltCause = .endOfImage

/-- The run ended abnormally (R189). -/
abbrev State.EndedAbnormally (s : State) : Prop :=
  s.run = .halted ∧ (s.haltCause = .illegalOpcode ∨ s.haltCause = .watchdog)

/-- A clean run (R189): a normal end and nothing logged. -/
abbrev State.EndedCleanly (s : State) : Prop := s.EndedNormally ∧ s.diag = []

/-- What holds of a launched machine before, between and after its steps, and of a machine after reset. -/
structure State.Inv (s : State) : Prop where
  /-- The parameters meet R8, R9, R10. -/
  config : s.cfg.Wf
  /-- `RUN = RUNNING` exactly when `HALT_CAUSE = NONE` (R28). -/
  cause : s.run = .running ↔ s.haltCause = .none
  /-- Every executed instruction advanced `pc` by 3 and the counter by 1 (R120), so `pc mod 3 = 0` (R25). -/
  pcCount : s.pc = 3 * s.icount
  /-- `pc <= 3 * (IMG_LEN div 3)` (R25). -/
  pcInImage : s.pc ≤ 3 * (s.imgLen / 3)
  /-- `ICOUNT` never exceeds the ceiling (R26). -/
  count : s.icount ≤ s.cfg.watchdogLimit
  /-- The host's duty on the image (R11). -/
  image : s.imgLen < 2 ^ s.cfg.pcBits
  /-- The accumulator's value fits W bits (R30). -/
  accRange : s.cfg.InRange s.acc
  /-- Every cell's value fits W bits (R30). -/
  cellRange : ∀ e ∈ s.mem, s.cfg.InRange e.2
  /-- Memory keeps its canonical form. -/
  memWf : s.mem.Wf
  /-- No cell lies outside the memory (R29). -/
  memBound : ∀ e ∈ s.mem, e.1 < s.cfg.capacity

/-- The kinds an executed instruction or the launch appends: a run goes on after them (R170, R205). -/
def DiagKind.nonFatal : DiagKind → Bool
  | .oobLoad | .oobStore | .oobSqrt | .truncatedImage => true
  | .illegalOpcode | .watchdog => false

/-- The event with which a halt of this cause closes the log (R169). -/
def haltEvents (cause : HaltCause) (pc : Nat) : List Event :=
  match cause with
  | .none => []
  | .endOfImage => []
  | .illegalOpcode => [⟨.illegalOpcode, pc⟩]
  | .watchdog => [⟨.watchdog, pc⟩]

/-- The log tells how the machine stands: non-fatal events, of instructions below `pc` or of the launch, and then the event
of the halt, if the halt has one (R35, R169, R175). -/
def State.LogMatches (s : State) : Prop :=
  ∃ earlier : List Event,
    s.diag = earlier ++ haltEvents s.haltCause s.pc ∧
      ∀ e ∈ earlier, e.kind.nonFatal = true ∧ (e.kind = .truncatedImage ∧ e.pc = 0 ∨ e.pc < s.pc)

/-! A second engine that decodes the whole image when it is loaded, for the statement that decoding at load and decoding at
each step cannot be told apart (40_fetch_decode_dispatch.md R113, 90_conflicts.md C7). -/

/-- All complete instructions of an image, decoded. Fewer than 3 bytes at its end are none. -/
def decodeAll : List Byte → List (OpcodeField × Operand)
  | byte0 :: byte1 :: _ :: rest => (opcodeField byte0, operandField byte0 byte1) :: decodeAll rest
  | _ => []

/-- The engine on decoded instructions, with no image and no fetch. -/
def runDecoded : List (OpcodeField × Operand) → State → State
  | [], s => s.haltEndOfImage
  | (a, b) :: rest, s =>
    if s.cfg.watchdogLimit ≤ s.icount then s.haltWatchdog
    else
      match dispatch a b with
      | none => s.haltIllegalOpcode
      | some i =>
        match exec i s with
        | .next t => runDecoded rest t
        | .fault _ => s
        | .refused _ => s

/-- How many instructions at the head of a decoded image are legal (R123). -/
def legalPrefix : List (OpcodeField × Operand) → Nat
  | [] => 0
  | (a, b) :: rest => if (dispatch a b).isSome then legalPrefix rest + 1 else 0

end Sys2Proof.Machine
end

