-- ==== Sys2Proof/Certificates/Slice0/Obligations.lean ====
section
/-!
DEFINITION. The statements about UVM20, from the numbered rules of spec/. Where a clause rests on a decision or a derivation
that the spec marks as its own, or on a choice of the model, the docstring says so.
-/
open Sys2Proof Sys2Proof.Machine

/-! Encoding and decoding. -/

/-- 30_encoding.md section 4: decoding an encoded instruction gives it back, whatever bytes follow. -/
def Obligations.DecodeOfEncodeIsIdentity : Prop :=
  ∀ (i : Instr) (rest : List Byte), decode (encode i ++ rest) = .ok (i, rest)

/-- 30_encoding.md section 4, the spec's derivation: encoding a decoded word gives the word back exactly when its byte 2 is
zero. -/
def Obligations.EncodeOfDecodeNeedsZeroByte2 : Prop :=
  ∀ (byte0 byte1 byte2 : Byte) (i : Instr),
    decode [byte0, byte1, byte2] = .ok (i, []) → (encode i = [byte0, byte1, byte2] ↔ byte2 = 0)

/-- R83, R114: the unpacker's two fields, from byte 0 and byte 1 alone, for every byte 2 and whether or not the opcode is
legal. -/
def Obligations.UnpackerFields : Prop :=
  ∀ (byte0 byte1 byte2 : Byte) (rest : List Byte),
    ∃ a b, unpack (byte0 :: byte1 :: byte2 :: rest) = .fields a b ∧
      a.toNat = byte0.toNat / 16 ∧ b.toNat = byte0.toNat % 16 * 256 + byte1.toNat

/-- 40_fetch_decode_dispatch.md section 2: the decoder at any offset. -/
def Obligations.DecoderInterface : Prop :=
  ∀ (img : List Byte) (off : Nat),
    (img.length < off + 3 → decodeAt img off = .endOfProgram) ∧
      ∀ byte0 byte1 byte2, img[off]? = some byte0 → img[off + 1]? = some byte1 → img[off + 2]? = some byte2 →
        decodeAt img off = .fields (opcodeField byte0) (operandField byte0 byte1)

/-- R86, R116: the 16 entries of the dispatch table; the operand is passed unchanged, and discarded for an illegal opcode;
the values of byte 0 that give each of them; and the table read the other way, from the four mnemonics. -/
def Obligations.DispatchTableEntries : Prop :=
  ∀ b : Operand,
    dispatch 0 b = some (.loadMem b) ∧ dispatch 2 b = some (.sqrt b) ∧ dispatch 10 b = some (.loadConst b) ∧
      dispatch 14 b = some (.storeMem b) ∧
      (∀ a : OpcodeField, a ≠ 0 → a ≠ 2 → a ≠ 10 → a ≠ 14 → dispatch a b = none) ∧
      (∀ (a : OpcodeField) (byte0 : Byte),
        opcodeField byte0 = a ↔ a.toNat * 16 ≤ byte0.toNat ∧ byte0.toNat ≤ a.toNat * 16 + 15) ∧
      mnemonicCode "LOAD_CONST" = some 10 ∧ mnemonicCode "LOAD_MEM" = some 0 ∧ mnemonicCode "STORE_MEM" = some 14 ∧
      mnemonicCode "SQRT" = some 2

/-- 30_encoding.md section 4, the spec's derivation: the decoder is total. Three bytes are one instruction with its fields,
or an illegal opcode by name, and fewer are the end of the program. -/
def Obligations.DecoderIsTotal : Prop :=
  (∀ (byte0 byte1 byte2 : Byte) (rest : List Byte),
    (∃ i, decode (byte0 :: byte1 :: byte2 :: rest) = .ok (i, rest) ∧
        (i.opcode = 0 ∨ i.opcode = 2 ∨ i.opcode = 10 ∨ i.opcode = 14) ∧
        i.opcode.toNat = byte0.toNat / 16 ∧ i.operand.toNat = byte0.toNat % 16 * 256 + byte1.toNat) ∨
      ∃ a, decode (byte0 :: byte1 :: byte2 :: rest) = .error (.illegalOpcode a) ∧
        a.toNat = byte0.toNat / 16 ∧ a ≠ 0 ∧ a ≠ 2 ∧ a ≠ 10 ∧ a ≠ 14) ∧
  ∀ bytes : List Byte, bytes.length < 3 → decode bytes = .error .endOfProgram

/-- Words of 30_encoding.md section 7 and 95_test_vectors.md section 2.1, written out as bytes and as numbers of the opcode
table. -/
def Obligations.WorkedEncodingsDecode : Prop :=
  decode [0xA1, 0xF4, 0x00] = .ok (.loadConst 500, []) ∧
  decode [0x01, 0x00, 0x00] = .ok (.loadMem 256, []) ∧
  decode [0xE0, 0x07, 0x00] = .ok (.storeMem 7, []) ∧
  decode [0x21, 0xF4, 0x00] = .ok (.sqrt 500, []) ∧
  decode [0x10, 0x00, 0x00] = .error (.illegalOpcode 1) ∧
  decode [0xA0, 0x2A] = .error .endOfProgram ∧
  decodeTableWord 24 0xAFFF00 = some (.loadConst 4095) ∧
  decodeTableWord 24 0xB1F400 = none

/-- 30_encoding.md section 6: the encoder takes any opcode number and any integer operand. That the operand is kept modulo
4096, negative operands included, is the spec's decision D22. -/
def Obligations.EncoderTruncatesOperand : Prop :=
  ∀ (a : OpcodeField) (operand : Int),
    ∃ byte0 byte1 b, encodeFields a operand = [byte0, byte1, 0] ∧
      unpack [byte0, byte1, 0] = .fields a b ∧ (b.toNat : Int) = operand % 4096

/-- R97: each source instruction becomes one command and each command one 3-byte instruction, in program order, so number k
lies at offset 3 * k. -/
def Obligations.AssemblyIsOneToOne : Prop :=
  ∀ (prog : List SourceInstr) (img : List Byte), assemble prog = .ok img →
    img.length = 3 * prog.length ∧
      ∀ (k : Nat) (i : SourceInstr), prog[k]? = some i →
        ∃ code, mnemonicCode i.mnemonic = some code ∧ (img.drop (3 * k)).take 3 = encodeFields code i.operand

/-- R99: an unknown mnemonic, and nothing else, aborts the whole translation; and no image the assembler makes holds an
illegal opcode. -/
def Obligations.UnknownMnemonicAborts : Prop :=
  ∀ prog : List SourceInstr,
    ((∃ i ∈ prog, mnemonicCode i.mnemonic = none) ↔ ∃ m, assemble prog = .error (.unknownMnemonic m)) ∧
      ∀ img, assemble prog = .ok img → ∀ ab ∈ decodeAll img, dispatch ab.1 ab.2 ≠ none

/-! The instructions. -/

/-- R130: LOAD_CONST, its encoding and its effect. It reads nothing, writes the accumulator and appends nothing. A larger
source constant reaches the hardware as its low 12 bits. -/
def Obligations.LoadConstResult : Prop :=
  ∀ (b : Operand) (s : State),
    (∀ byte2 : Byte, decode [0xA#4 ++ b.extractLsb' 8 4, b.extractLsb' 0 8, byte2] = .ok (.loadConst b, [])) ∧
      decode (encodeFields 10 5000) = .ok (.loadConst 904, []) ∧
      ∃ t, exec (.loadConst b) s = .next t ∧
        t.acc = b.toNat ∧ (s.cfg.Wf → s.cfg.InRange t.acc) ∧ (∀ a, t.mem.read a = s.mem.read a) ∧ t.mem = s.mem ∧
        t.diag = s.diag ∧ t.pc = s.pc + 3 ∧ t.icount = s.icount + 1 ∧ t.run = s.run ∧
        t.haltCause = s.haltCause ∧ t.img = s.img ∧ t.cfg = s.cfg

/-- 42_load_mem_store_mem.md section 1: LOAD_MEM in both arms. The exact address sum is the spec's decision D4, the value 0
out of bounds its decision D14. -/
def Obligations.LoadMemResult : Prop :=
  ∀ (b : Operand) (s : State), ∃ t, exec (.loadMem b) s = .next t ∧
    (if 0 ≤ s.acc + b.toNat ∧ s.acc + b.toNat < s.cfg.capacity then
      t.acc = s.mem.read (s.acc + b.toNat).toNat ∧ t.diag = s.diag
    else t.acc = 0 ∧ t.diag = s.diag ++ [⟨.oobLoad, s.pc⟩]) ∧
    (∀ a, t.mem.read a = s.mem.read a) ∧ t.mem = s.mem ∧ t.pc = s.pc + 3 ∧ t.icount = s.icount + 1 ∧
    t.run = s.run ∧ t.haltCause = s.haltCause ∧ t.img = s.img ∧ t.cfg = s.cfg

/-- 42_load_mem_store_mem.md section 2: STORE_MEM in both arms. The address stored to is B, whatever the accumulator. That
the whole accumulator is stored is the spec's decision D26. -/
def Obligations.StoreMemResult : Prop :=
  ∀ (b : Operand) (s : State), ∃ t, exec (.storeMem b) s = .next t ∧
    (if b.toNat < s.cfg.capacity then
      t.mem.read b.toNat = s.acc ∧ (∀ a, a ≠ b.toNat → t.mem.read a = s.mem.read a) ∧ t.diag = s.diag
    else t.mem = s.mem ∧ t.diag = s.diag ++ [⟨.oobStore, s.pc⟩]) ∧
    t.acc = s.acc ∧ t.pc = s.pc + 3 ∧ t.icount = s.icount + 1 ∧ t.run = s.run ∧ t.haltCause = s.haltCause ∧
    t.img = s.img ∧ t.cfg = s.cfg

/-- 43_sqrt.md section 1: SQRT in both arms. The value stored is the floor of the square root of the magnitude the source
held before. One event whichever address failed is the spec's decision D15, the exact root and the magnitude of the most
negative value its decision D16. -/
def Obligations.SqrtResult : Prop :=
  ∀ (b : Operand) (s : State), ∃ t, exec (.sqrt b) s = .next t ∧
    (if 0 ≤ s.acc ∧ s.acc < s.cfg.capacity ∧ b.toNat < s.cfg.capacity then
      (∃ r : Nat, IsFloorSqrt (s.mem.read s.acc.toNat).natAbs r ∧ t.mem.read b.toNat = r) ∧
        (∀ a, a ≠ b.toNat → t.mem.read a = s.mem.read a) ∧ t.diag = s.diag
    else t.mem = s.mem ∧ t.diag = s.diag ++ [⟨.oobSqrt, s.pc⟩]) ∧
    t.acc = s.acc ∧ t.pc = s.pc + 3 ∧ t.icount = s.icount + 1 ∧ t.run = s.run ∧ t.haltCause = s.haltCause ∧
    t.img = s.img ∧ t.cfg = s.cfg

/-- 40_fetch_decode_dispatch.md section 5: the common end of every instruction, in every arm. What counts as executed, and
that nothing else changes, are the spec's decisions D7 and D11. -/
def Obligations.EveryInstructionAdvances : Prop :=
  ∀ (i : Instr) (s : State), ∃ t, exec i s = .next t ∧
    t.pc = s.pc + 3 ∧ t.icount = s.icount + 1 ∧ t.run = s.run ∧ t.haltCause = s.haltCause ∧ t.img = s.img ∧
    t.cfg = s.cfg ∧ (t.diag = s.diag ∨ ∃ k, t.diag = s.diag ++ [⟨k, s.pc⟩])

/-- R170: an out-of-bounds address does not halt, trap or change control flow: exactly one event, the instruction completes
and is counted, nothing is stored, and `RUN` and `HALT_CAUSE` stay. -/
def Obligations.OutOfBoundsNeverHalts : Prop :=
  ∀ (i : Instr) (s : State),
    (match i with
      | .loadMem b => ¬(0 ≤ s.acc + b.toNat ∧ s.acc + b.toNat < s.cfg.capacity)
      | .storeMem b => s.cfg.capacity ≤ b.toNat
      | .sqrt b => ¬(0 ≤ s.acc ∧ s.acc < s.cfg.capacity) ∨ s.cfg.capacity ≤ b.toNat
      | .loadConst _ => False) →
    ∃ t e, exec i s = .next t ∧ t.diag = s.diag ++ [e] ∧ t.mem = s.mem ∧ t.pc = s.pc + 3 ∧
      t.icount = s.icount + 1 ∧ t.run = s.run ∧ t.haltCause = s.haltCause

/-- 60_exceptions.md section 3: the event OOB_LOAD, kind 1, and its result. The number of the kind is the spec's decision
D10, what an event holds its decision D12, the value 0 its decision D14. -/
def Obligations.OobLoadEvent : Prop :=
  DiagKind.oobLoad.code = 1 ∧ ∀ (b : Operand) (s : State), ¬(0 ≤ s.acc + b.toNat ∧ s.acc + b.toNat < s.cfg.capacity) →
    ∃ t, exec (.loadMem b) s = .next t ∧ t.acc = 0 ∧ t.diag = s.diag ++ [⟨.oobLoad, s.pc⟩]

/-- 60_exceptions.md section 3: the event OOB_STORE, kind 2, and its result (the spec's decisions D10 and D12). -/
def Obligations.OobStoreEvent : Prop :=
  DiagKind.oobStore.code = 2 ∧ ∀ (b : Operand) (s : State), s.cfg.capacity ≤ b.toNat →
    ∃ t, exec (.storeMem b) s = .next t ∧ t.mem = s.mem ∧ t.acc = s.acc ∧ t.diag = s.diag ++ [⟨.oobStore, s.pc⟩]

/-- 60_exceptions.md section 3: the event OOB_SQRT, kind 3, one however many addresses failed, and its result; and the kind
TRUNCATED_IMAGE is appended by no step, but by the launch of an image whose length is no multiple of 3 (the spec's decisions
D10, D12, D13 and D15). -/
def Obligations.OobSqrtEvent : Prop :=
  DiagKind.oobSqrt.code = 3 ∧ DiagKind.truncatedImage.code = 6 ∧ DiagKind.illegalOpcode.code = 4 ∧
  DiagKind.watchdog.code = 5 ∧
  (∀ (b : Operand) (s : State), ¬(0 ≤ s.acc ∧ s.acc < s.cfg.capacity) ∨ s.cfg.capacity ≤ b.toNat →
    ∃ t, exec (.sqrt b) s = .next t ∧ t.mem = s.mem ∧ t.acc = s.acc ∧ t.diag = s.diag ++ [⟨.oobSqrt, s.pc⟩]) ∧
  (∀ s t : State, step s = .next t → ∃ new, t.diag = s.diag ++ new ∧ ∀ e ∈ new, e.kind ≠ .truncatedImage) ∧
  ∀ (c : Config) (img : List Byte) (init : InitData) (s : State), launch c img init = .next s →
    ((⟨.truncatedImage, 0⟩ : Event) ∈ s.diag ↔ img.length % 3 ≠ 0)

/-- 43_sqrt.md section 2: SQRT of a cell holding v yields the same result as of a cell holding `abs(v)`, where `abs(v)` is
v or -v and at most `2^(W-1)` for a value of W bits (the magnitude of the most negative value is the spec's decision
D16). -/
def Obligations.SqrtTakesMagnitude : Prop :=
  (∀ (c : Config) (v : Int), (magnitude v : Int) = (if 0 ≤ v then v else -v) ∧
    (c.InRange v → magnitude v ≤ 2 ^ (c.cellBits - 1))) ∧
  ∀ (b : Operand) (s : State) (v : Int),
    0 ≤ s.acc → s.acc < s.cfg.capacity → b.toNat < s.cfg.capacity →
    ∃ t u, exec (.sqrt b) (s.memWrite s.acc.toNat v) = .next t ∧
      exec (.sqrt b) (s.memWrite s.acc.toNat (magnitude v : Int)) = .next u ∧
      t.mem.read b.toNat = u.mem.read b.toNat

/-- R157: the values D0 gives. -/
def Obligations.SqrtValuesOfSource : Prop :=
  isqrt (magnitude 15) = 3 ∧ isqrt (magnitude 1000) = 31 ∧ isqrt (magnitude 25) = 5 ∧ isqrt (magnitude 2) = 1 ∧
  isqrt (magnitude 0) = 0 ∧ isqrt (magnitude (-36)) = 6 ∧ isqrt (magnitude 36) = 6 ∧
  [0, 1, 4, 9, 16, 25, 36, 49, 64, 81].map (fun v => isqrt (magnitude v)) = [0, 1, 2, 3, 4, 5, 6, 7, 8, 9]

/-- 43_sqrt.md section 2, the spec's derivation: the square root is monotone, has the value k on all of
`k * k` to `k * k + 2 * k`, and repeated application reaches 1 from every number but 0 and stays there, and at 0. -/
def Obligations.SqrtMonotoneAndFixedPoints : Prop :=
  (∀ m n : Nat, m ≤ n → isqrt m ≤ isqrt n) ∧
  (∀ k j : Nat, j ≤ 2 * k → isqrt (k * k + j) = k) ∧
  (∀ n : Nat, n ≠ 0 → ∃ k, ∀ l, k ≤ l → isqrt^[l] n = 1) ∧ ∀ l : Nat, isqrt^[l] 0 = 0

/-- 43_sqrt.md section 2, the spec's derivation: the result of SQRT fits a cell as a non-negative number, for every value of
a cell of at least 2 bits, and it is at most the magnitude, with equality for 0 and 1 only. -/
def Obligations.SqrtResultFitsCell : Prop :=
  ∀ (c : Config) (v : Int), 2 ≤ c.cellBits → c.InRange v →
    isqrt (magnitude v) ≤ isqrt (2 ^ (c.cellBits - 1)) ∧ isqrt (2 ^ (c.cellBits - 1)) < 2 ^ (c.cellBits - 1) ∧
    c.InRange (isqrt (magnitude v) : Nat) ∧ isqrt (magnitude v) ≤ magnitude v ∧
    (isqrt (magnitude v) = magnitude v ↔ magnitude v = 0 ∨ magnitude v = 1)

/-! Sequences of instructions, through the step. -/

/-- 42_load_mem_store_mem.md section 1, D0's scenario for the out-of-bounds load: the step does not halt the run, the
accumulator is 0, `HALT_CAUSE` stays, and the instruction after it executes. That the step after it runs depends on the
watchdog, whose test is the spec's decision D8. -/
def Obligations.OobLoadThenNextInstruction : Prop :=
  ∀ (s : State) (img : List Byte) (b : Operand) (i : Instr) (a' : OpcodeField) (b' : Operand),
    s.run = .running → s.img = some img → s.icount + 1 < s.cfg.watchdogLimit →
    decodeAt img s.pc = .fields 0 b → ¬(0 ≤ s.acc + b.toNat ∧ s.acc + b.toNat < s.cfg.capacity) →
    decodeAt img (s.pc + 3) = .fields a' b' → dispatch a' b' = some i →
    ∃ t, step s = .next t ∧ t.acc = 0 ∧ t.run = .running ∧ t.haltCause = s.haltCause ∧ step t = exec i t

/-- 41_load_const.md, D0's property: LOAD_CONST(c) followed by STORE_MEM(addr) leaves c in cell addr. The ranges of c and
addr are the spec's derivation; the premise on the watchdog rests on its decision D8. -/
def Obligations.ConstThenStore : Prop :=
  ∀ (s : State) (img : List Byte) (c addr : Operand),
    s.run = .running → s.img = some img → s.icount + 1 < s.cfg.watchdogLimit →
    decodeAt img s.pc = .fields 10 c → decodeAt img (s.pc + 3) = .fields 14 addr → addr.toNat < s.cfg.capacity →
    ∃ t u, step s = .next t ∧ step t = .next u ∧ u.mem.read addr.toNat = c.toNat ∧ u.diag = s.diag ∧ u.run = .running ∧
      ∀ a, a ≠ addr.toNat → u.mem.read a = s.mem.read a

/-- 42_load_mem_store_mem.md section 3, the spec's derivation: LOAD_CONST s, LOAD_MEM 0, STORE_MEM d copies cell s to cell
d. -/
def Obligations.CopyOneCell : Prop :=
  ∀ (s : State) (img : List Byte) (src dst : Operand),
    s.run = .running → s.img = some img → s.icount + 2 < s.cfg.watchdogLimit →
    decodeAt img s.pc = .fields 10 src → decodeAt img (s.pc + 3) = .fields 0 0 →
    decodeAt img (s.pc + 6) = .fields 14 dst → src.toNat < s.cfg.capacity → dst.toNat < s.cfg.capacity →
    ∃ t u v, step s = .next t ∧ step t = .next u ∧ step u = .next v ∧
      v.mem.read dst.toNat = s.mem.read src.toNat ∧ v.acc = s.mem.read src.toNat ∧ v.diag = s.diag ∧
      ∀ a, a ≠ dst.toNat → v.mem.read a = s.mem.read a

/-- 43_sqrt.md section 1 (corner case 1) and 70_reset_and_hazards.md section 4, the spec's derivation: SQRT in place uses the
value the cell held before. The pair of D0's scenario: LOAD_CONST a, SQRT a. -/
def Obligations.SqrtInPlace : Prop :=
  ∀ (s : State) (img : List Byte) (a : Operand),
    s.run = .running → s.img = some img → s.icount + 1 < s.cfg.watchdogLimit →
    decodeAt img s.pc = .fields 10 a → decodeAt img (s.pc + 3) = .fields 2 a → a.toNat < s.cfg.capacity →
    ∃ t u, step s = .next t ∧ step t = .next u ∧ u.acc = a.toNat ∧
      (∃ r : Nat, IsFloorSqrt (s.mem.read a.toNat).natAbs r ∧ u.mem.read a.toNat = r) ∧
      ∀ x, x ≠ a.toNat → u.mem.read x = s.mem.read x

/-! The step and the halts. -/

/-- 40_fetch_decode_dispatch.md section 1: when the bytes at `pc` decode to an instruction, the step of a running, launched
machine below the watchdog's ceiling is that instruction's execution. -/
def Obligations.StepRunsDecodedInstruction : Prop :=
  ∀ (s : State) (img : List Byte) (i : Instr) (rest : List Byte),
    s.run = .running → s.img = some img → s.icount < s.cfg.watchdogLimit →
    decode (img.drop s.pc) = .ok (i, rest) → step s = exec i s

/-- A word stored by `withFetchWord` is what the next step runs, from every state of a machine with legal parameters: the
model's stand-in for the host's load (log 9). -/
def Obligations.FetchWordRunsNext : Prop :=
  ∀ (s : State) (w : Nat) (i : Instr), s.cfg.Wf → decodeTableWord 24 w = some i →
    step (s.withFetchWord 24 w) = exec i (s.withFetchWord 24 w)

/-- 40_fetch_decode_dispatch.md section 1: with fewer than 3 bytes at `pc` the run ends normally and no event is appended;
where the image's length is a multiple of 3 that is `pc` reaching or exceeding it. That this is so whatever the counter says,
the end of the image ranking before the watchdog, is the spec's decision D9 (log 11). -/
def Obligations.EndOfImageHalts : Prop :=
  ∀ (s : State) (img : List Byte), s.run = .running → s.img = some img →
    (img.length < s.pc + 3 →
      ∃ t, step s = .next t ∧ t.run = .halted ∧ t.haltCause = .endOfImage ∧ t.diag = s.diag) ∧
    (img.length % 3 = 0 → s.pc % 3 = 0 → (img.length < s.pc + 3 ↔ img.length ≤ s.pc))

/-- 60_exceptions.md section 2: a step that halts, and there is one only of a running, launched machine, names its cause and
changes nothing but `RUN`, `HALT_CAUSE` and the log (the spec's decision D11). -/
def Obligations.HaltingStepChangesNothingElse : Prop :=
  ∀ s t : State, step s = .next t → t.run = .halted →
    s.run = .running ∧ s.img ≠ none ∧ t.haltCause ≠ .none ∧
      t = { s with run := .halted, haltCause := t.haltCause, diag := t.diag } ∧
      (t.diag = s.diag ↔ t.haltCause = .endOfImage)

/-- 40_fetch_decode_dispatch.md section 1: the watchdog halts before the fetch, whatever bytes lie at `pc`. The test and its
place in the order are the spec's decisions D8 and D9, the state left its decision D11, the event its decision D12. -/
def Obligations.WatchdogHalts : Prop :=
  ∀ (s : State) (img : List Byte), s.run = .running → s.img = some img → s.pc + 3 ≤ img.length →
    s.cfg.watchdogLimit ≤ s.icount →
    step s = .next { s with run := .halted, haltCause := .watchdog, diag := s.diag ++ [⟨.watchdog, s.pc⟩] }

/-- 60_exceptions.md section 2: an opcode other than 0, 2, 10 and 14 halts, logged, and has no other effect, whatever the
operand and byte 2. The state left is the spec's decision D11, the event's content its decision D12. -/
def Obligations.IllegalOpcodeHalts : Prop :=
  ∀ (s : State) (img : List Byte) (byte0 byte1 byte2 : Byte) (rest : List Byte),
    s.run = .running → s.img = some img → s.icount < s.cfg.watchdogLimit →
    img.drop s.pc = byte0 :: byte1 :: byte2 :: rest →
    byte0.toNat / 16 ≠ 0 → byte0.toNat / 16 ≠ 2 → byte0.toNat / 16 ≠ 10 → byte0.toNat / 16 ≠ 14 →
    step s = .next { s with run := .halted, haltCause := .illegalOpcode, diag := s.diag ++ [⟨.illegalOpcode, s.pc⟩] }

/-- 60_exceptions.md section 5: HALTED is terminal (the spec's decision D17); and between reset and start there is no step
(its decision D17 too). That "no step" is a fault of these names is the model's choice (log 6, log 8). -/
def Obligations.NoStepWhenHaltedOrUnlaunched : Prop :=
  (∀ s : State, s.run = .halted → step s = .fault .halted ∧ ∀ n, runFor n s = s) ∧
  ∀ c : Config, step (State.resetWith c) = .fault .notLaunched

/-- 40_fetch_decode_dispatch.md section 4, the spec's derivation: a running, launched machine always has a next state, and
no state whatever makes a step refuse. -/
def Obligations.RunningMachineAlwaysSteps : Prop :=
  (∀ (s : State) (img : List Byte), s.run = .running → s.img = some img → ∃ t, step s = .next t) ∧
  ∀ (s : State) (r : Refusal), step s ≠ .refused r

/-- R121: no instruction changes `pc` but by the advance of 3, so instructions execute in ascending offset order, each at
most once. -/
def Obligations.PcOnlyAdvancesByThree : Prop :=
  (∀ s t : State, step s = .next t → (t.pc = s.pc + 3 ∨ t.pc = s.pc) ∧ (t.run = .running → t.pc = s.pc + 3)) ∧
  ∀ (n : Nat) (s : State), (runFor (n + 1) s).run = .running → s.img ≠ none → s.pc + 3 * (n + 1) = (runFor (n + 1) s).pc

/-- 20_memory.md section 4: stores are never seen by instruction fetch: along any run, what the decoder finds at any offset
stays the same. That the parameters, which ride in State, stay too is the model's choice (log 1). -/
def Obligations.FetchNeverSeesStores : Prop :=
  ∀ (n : Nat) (s : State), (runFor n s).img = s.img ∧ (runFor n s).cfg = s.cfg ∧
    ∀ off, decodeAt (runFor n s).imgBytes off = decodeAt s.imgBytes off

/-- 10_state.md sections 2 and 5: in one step the accumulator changes only under LOAD_CONST and LOAD_MEM, and a cell only
under STORE_MEM and SQRT, the one cell their operand names, inside the memory. -/
def Obligations.WhoWritesAccAndMemory : Prop :=
  ∀ s t : State, step s = .next t →
    (t.acc ≠ s.acc → ∃ b, decodeAt s.imgBytes s.pc = .fields 10 b ∨ decodeAt s.imgBytes s.pc = .fields 0 b) ∧
    ∀ a, t.mem.read a ≠ s.mem.read a → a < s.cfg.capacity ∧
      ∃ b : Operand, b.toNat = a ∧ (decodeAt s.imgBytes s.pc = .fields 14 b ∨ decodeAt s.imgBytes s.pc = .fields 2 b)

/-- 20_memory.md section 1, the spec's derivation: cells from 4096 up are never written by a run; and with at least 4096
cells STORE_MEM is never out of bounds. -/
def Obligations.HighCellsNeverWritten : Prop :=
  (∀ (n : Nat) (s : State) (a : Nat), 4096 ≤ a → (runFor n s).mem.read a = s.mem.read a) ∧
  ∀ (b : Operand) (s : State), 4096 ≤ s.cfg.capacity →
    ∃ t, exec (.storeMem b) s = .next t ∧ t.diag = s.diag ∧ t.mem.read b.toNat = s.acc

/-! Invariants, and what nothing depends on. -/

/-- 10_state.md R25, R26, R28, R30, all derivations of the spec, and the model's canonical memory (log 5): every step keeps
the invariant, from every state that has it. -/
def Obligations.StepKeepsInvariant : Prop :=
  ∀ s t : State, s.Inv → step s = .next t → t.Inv

/-- The invariant holds after reset of every machine with legal parameters, and of the machine of `State.reset`, whose
parameters are the model's choice (log 2, log 3). That `RUN` and `HALT_CAUSE` agree there rests on `RUN` standing at RUNNING
before the start, the model's choice too (log 7). -/
def Obligations.ResetHasInvariant : Prop :=
  State.reset.Inv ∧ ∀ c : Config, c.Wf → (State.resetWith c).Inv

/-- The invariant, and the log's, hold of every launched machine (70_reset_and_hazards.md section 2). -/
def Obligations.LaunchHasInvariant : Prop :=
  ∀ (c : Config) (img : List Byte) (init : InitData) (s : State),
    launch c img init = .next s → s.Inv ∧ s.LogMatches

/-- 60_exceptions.md sections 2 to 4: every step keeps the log in the form the halt's event, the non-fatal events and the
precision of both give it. The events' content is the spec's decision D12. -/
def Obligations.StepKeepsLogMatching : Prop :=
  ∀ s t : State, s.Inv → s.LogMatches → step s = .next t → t.LogMatches

/-- 10_state.md section 8: the log is append-only and never read. With another log in its place a step does the same and
appends the same (the log's form is the spec's decisions D10 and D12). -/
def Obligations.LogIsNeverRead : Prop :=
  ∀ (s : State) (d : List Event),
    (∀ t, step s = .next t → ∃ new, t.diag = s.diag ++ new ∧
      step { s with diag := d } = .next { t with diag := d ++ new }) ∧
    ∀ r, step s = .fault r → step { s with diag := d } = .fault r

/-- 30_encoding.md section 2, the spec's decision D2: images that differ only in the third byte of their instructions run
alike from every state whose `pc` is a multiple of 3. -/
def Obligations.ReservedByteIsIgnored : Prop :=
  ∀ (n : Nat) (s : State) (img img' : List Byte),
    s.pc % 3 = 0 → img.length = img'.length → (∀ k : Nat, k % 3 ≠ 2 → img[k]? = img'[k]?) →
    runFor n { s with img := some img' } = { runFor n { s with img := some img } with img := some img' }

/-- 00_scope.md section 4 and 10_state.md section 5: no run depends on the widths of cells and of the program counter. The
spec derives it for runs whose initial values fit a cell; that it holds from every state rests on cells, accumulator and
program counter being held as unbounded numbers, the model's choice (log 4). -/
def Obligations.WidthsNeverMatter : Prop :=
  ∀ (n : Nat) (s : State) (w p : Nat),
    runFor n { s with cfg := { s.cfg with cellBits := w, pcBits := p } } =
      { runFor n s with cfg := { s.cfg with cellBits := w, pcBits := p } }

/-- The model's canonical form of memory (log 5): two memories in it that hold the same in every cell are the same list. -/
def Obligations.CanonicalMemoryIsUnique : Prop :=
  ∀ m m' : Memory, m.Wf → m'.Wf → (∀ a, m.read a = m'.read a) → m = m'

/-! Whole runs. -/

/-- 40_fetch_decode_dispatch.md section 6, the spec's derivation: every run halts, after at most `min(IMG_LEN div 3, L)`
instructions and one step more, from every running, launched state with the invariant. -/
def Obligations.EveryRunHalts : Prop :=
  ∀ s : State, s.Inv → s.run = .running → s.img ≠ none →
    s.final.run = .halted ∧ s.final.icount ≤ min (s.imgLen / 3) s.cfg.watchdogLimit

/-- 40_fetch_decode_dispatch.md section 6 and 60_exceptions.md section 2, the spec's derivation (with its decisions D8, D9,
D11): which of the three halts ends a launched run, and where, by the number k of legal instructions at the head of the
image, the number `IMG_LEN div 3` of complete ones, and the ceiling. -/
def Obligations.HowEveryRunEnds : Prop :=
  ∀ (c : Config) (img : List Byte) (init : InitData) (s : State), launch c img init = .next s →
    (s.final.haltCause = .watchdog ↔
      c.watchdogLimit < img.length / 3 ∧ c.watchdogLimit ≤ legalPrefix (decodeAll img)) ∧
    (s.final.haltCause = .illegalOpcode ↔
      legalPrefix (decodeAll img) < img.length / 3 ∧ legalPrefix (decodeAll img) < c.watchdogLimit) ∧
    (s.final.haltCause = .endOfImage ↔
      legalPrefix (decodeAll img) = img.length / 3 ∧ img.length / 3 ≤ c.watchdogLimit) ∧
    s.final.icount = min (legalPrefix (decodeAll img)) c.watchdogLimit ∧
    s.final.pc = 3 * min (legalPrefix (decodeAll img)) c.watchdogLimit

/-- 90_conflicts.md C7 and 40_fetch_decode_dispatch.md section 1: decoding the whole image at load and decoding at each
fetch end every launched run in the same state. -/
def Obligations.DecodeAtLoadIsTheSame : Prop :=
  ∀ (c : Config) (img : List Byte) (init : InitData) (s : State), launch c img init = .next s →
    s.final = runDecoded (decodeAll img) s

/-- 60_exceptions.md section 11, the spec's derivation: every run ends normally or abnormally and not both, and a run ends
cleanly exactly when its cause is END_OF_IMAGE and its log is empty. -/
def Obligations.EveryRunIsClassified : Prop :=
  ∀ s : State, s.Inv → s.run = .running → s.img ≠ none →
    (s.final.EndedNormally ∨ s.final.EndedAbnormally) ∧ ¬(s.final.EndedNormally ∧ s.final.EndedAbnormally) ∧
    (s.final.EndedCleanly ↔ s.final.haltCause = .endOfImage ∧ s.final.diag = [])

/-! Reset, launch and the host. -/

/-- R22, R31: after reset and at launch the accumulator is 0, and a cell that nothing has written or initialised reads as
0. -/
def Obligations.AccAndMemoryStartAtZero : Prop :=
  (∀ c : Config, (State.resetWith c).acc = 0 ∧ ∀ a, (State.resetWith c).mem.read a = 0) ∧
  (State.reset.acc = 0 ∧ ∀ a, State.reset.mem.read a = 0) ∧
  ∀ (c : Config) (img : List Byte) (init : InitData) (s : State), launch c img init = .next s →
    s.acc = 0 ∧ ∀ a : Nat, (∀ e ∈ init, e.1 ≠ a) → s.mem.read a = 0

/-- 10_state.md section 10: the rest of the reset values, which are the spec's decisions D5 (pc), D7 (ICOUNT), D10
(HALT_CAUSE), D12 (DIAG) and D17 (no image). That `RUN` already stands at RUNNING is the model's choice (log 7), and so is
that State.reset has the capacity that 00_scope.md section 4 gives as the default (log 3). -/
def Obligations.OtherResetValues : Prop :=
  State.reset.pc = 0 ∧ State.reset.icount = 0 ∧ State.reset.haltCause = .none ∧ State.reset.diag = [] ∧
  State.reset.img = none ∧ State.reset.run = .running ∧ State.reset.cfg.capacity = 65536

/-- R206: each entry of the initialisation data sets its cell, over the zeros of reset; cells not named stay 0. -/
def Obligations.InitialisationSetsCells : Prop :=
  ∀ (c : Config) (img : List Byte) (init : InitData) (s : State), launch c img init = .next s →
    (∀ a v, (a, v) ∈ init → s.mem.read a.toNat = v) ∧
    ∀ a : Nat, (∀ e ∈ init, e.1 ≠ a) → s.mem.read a = 0

/-- 70_reset_and_hazards.md section 2, with the spec's decisions D3, D6, D13, D18: which launches there are, and the log and
the registers they leave. That a repeated address is refused is read from "a mapping has each key once" (log 12). -/
def Obligations.WhichLaunchesThereAre : Prop :=
  ∀ (c : Config) (img : List Byte) (init : InitData),
    ((∃ s, launch c img init = .next s) ↔
      c.Wf ∧ img.length < 2 ^ c.pcBits ∧ (∀ e ∈ init, 0 ≤ e.1 ∧ e.1 < c.capacity ∧ c.InRange e.2) ∧
        (init.map Prod.fst).Nodup) ∧
    ∀ s, launch c img init = .next s →
      s.cfg = c ∧ s.pc = 0 ∧ s.icount = 0 ∧ s.run = .running ∧ s.haltCause = .none ∧ s.img = some img ∧
        s.diag = if img.length % 3 = 0 then [] else [⟨.truncatedImage, 0⟩]

/-- 70_reset_and_hazards.md section 3: the snapshot holds exactly the nonzero cells of the clamped range, and is empty where
there are none. Clamping both bounds is the spec's decision D20. -/
def Obligations.SnapshotHoldsNonzeroCells : Prop :=
  ∀ (s : State) (start stop : Int), s.Inv → s.run = .halted →
    ∃ l, snapshot s start stop = .next l ∧
      (∀ (a : Nat) (v : Int), (a, v) ∈ l ↔
        start ≤ a ∧ (a : Int) < stop ∧ a < s.cfg.capacity ∧ s.mem.read a = v ∧ v ≠ 0) ∧
      (l = [] ↔ ∀ a : Nat, start ≤ a → (a : Int) < stop → a < s.cfg.capacity → s.mem.read a = 0)

/-- 70_reset_and_hazards.md sections 1 and 3, with the spec's decisions D17 and D19: the host reads (result, state and
snapshots of any range) after the halt only, resets a machine that has halted or has not been launched to the reset state of
its parameters, whatever it did before, and launches none twice without a reset. That what the host must not do is a refusal of these names is the model's choice (log 13). -/
def Obligations.HostLifeCycle : Prop :=
  (∀ s : State, s.run = .running → executionResult s = .refused .hostDuringRun ∧ readback s = .refused .hostDuringRun ∧
    ∀ start stop, snapshot s start stop = .refused .hostDuringRun) ∧
  (∀ s : State, s.run = .halted → executionResult s = .next (s.haltCause, s.diag) ∧
    readback s = .next ⟨s.mem, s.acc, s.pc, s.icount, s.haltCause, s.diag⟩ ∧
    (∀ start stop, ∃ l, snapshot s start stop = .next l) ∧ hostReset s = .next (State.resetWith s.cfg)) ∧
  (∀ s : State, s.img = none → hostReset s = .next (State.resetWith s.cfg)) ∧
  (∀ (s : State) (img : List Byte), s.img = some img → s.run = .running → hostReset s = .refused .hostDuringRun) ∧
  ∀ (c : Config) (img img' : List Byte) (init init' : InitData) (s : State) (n : Nat),
    hostLaunch (State.resetWith c) img init = launch c img init ∧
    (launch c img init = .next s → hostLaunch (runFor n s) img' init' = .refused .alreadyLaunched)
end

