-- ==== Sys2Proof/Laws/Arith.lean ====
section
/-!
SUPPORT. What the square root computes: the integer that 43_sqrt.md R151 defines.
-/
namespace Sys2Proof.Machine

theorem isqrtRounds_isFloorSqrt : ∀ (k n : Nat), n < 4 ^ k → IsFloorSqrt n (isqrtRounds k n)
  | 0, n, h => by simp [isqrtRounds, IsFloorSqrt] at *; omega
  | k + 1, n, h => by
    have hk : n / 4 < 4 ^ k := by rw [pow_succ] at h; omega
    obtain ⟨h1, h2⟩ := isqrtRounds_isFloorSqrt k (n / 4) hk
    simp only [isqrtRounds]
    generalize isqrtRounds k (n / 4) = r at h1 h2
    have hlow : 2 * r * (2 * r) ≤ n := by
      have e : 2 * r * (2 * r) = 4 * (r * r) := by ring
      omega
    have hhigh : n < (2 * r + 1 + 1) * (2 * r + 1 + 1) := by
      have e : (2 * r + 1 + 1) * (2 * r + 1 + 1) = 4 * ((r + 1) * (r + 1)) := by ring
      omega
    split
    · next h => exact ⟨h, hhigh⟩
    · next h => exact ⟨hlow, not_le.1 h⟩

/-- `isqrt(n)` is the floor of the square root of n (R151). -/
theorem isqrt_isFloorSqrt (n : Nat) : IsFloorSqrt n (isqrt n) := by
  refine isqrtRounds_isFloorSqrt _ n ?_
  have h : n < 2 ^ (n.log2 + 1) := Nat.lt_log2_self
  have h4 : (4 : Nat) ^ (n.log2 / 2 + 1) = 2 ^ (2 * (n.log2 / 2 + 1)) := by rw [pow_mul]; norm_num
  rw [h4]
  exact h.trans_le (Nat.pow_le_pow_right (by norm_num) (by omega))

/-- There is only one such integer (R151). -/
theorem IsFloorSqrt.unique {n r q : Nat} (hr : IsFloorSqrt n r) (hq : IsFloorSqrt n q) : r = q := by
  have hrq : r < q + 1 := Nat.mul_self_lt_mul_self_iff.1 (lt_of_le_of_lt hr.1 hq.2)
  have hqr : q < r + 1 := Nat.mul_self_lt_mul_self_iff.1 (lt_of_le_of_lt hq.1 hr.2)
  omega

/-- The square root is the integer with the defining inequality. -/
theorem isqrt_eq_iff {n r : Nat} : isqrt n = r ↔ IsFloorSqrt n r :=
  ⟨fun h => h ▸ isqrt_isFloorSqrt n, fun h => (isqrt_isFloorSqrt n).unique h⟩

end Sys2Proof.Machine
end

