-- ==== Sys2Proof/Laws/Decode.lean ====
section
/-!
SUPPORT. The fields of an instruction as numbers, the dispatch table by cases, and the fields of encoded bytes.
-/
namespace Sys2Proof

/-- `A = byte0 div 16` (R83). -/
theorem opcodeField_toNat (byte0 : Byte) : (opcodeField byte0).toNat = byte0.toNat / 16 := by
  have := byte0.isLt
  simp [opcodeField, Nat.shiftRight_eq_div_pow]
  omega

/-- `B = byte0[3:0] * 256 + byte1` (R84). -/
theorem operandField_toNat (byte0 byte1 : Byte) :
    (operandField byte0 byte1).toNat = byte0.toNat % 16 * 256 + byte1.toNat := by
  refine (BitVec.toNat_append (byte0.extractLsb' 0 4) byte1).trans ?_
  rw [← Nat.shiftLeft_add_eq_or_of_lt byte1.isLt]
  simp [Nat.shiftLeft_eq]

/-- Dispatch answers an instruction with the opcode and operand it was given, or the opcode is one of the other twelve. -/
theorem dispatch_cases (a : OpcodeField) (b : Operand) :
    (dispatch a b = none ∧ a ≠ 0 ∧ a ≠ 2 ∧ a ≠ 10 ∧ a ≠ 14) ∨
      ∃ i, dispatch a b = some i ∧ i.opcode = a ∧ i.operand = b := by
  have h : a = 0 ∨ a = 1 ∨ a = 2 ∨ a = 3 ∨ a = 4 ∨ a = 5 ∨ a = 6 ∨ a = 7 ∨ a = 8 ∨ a = 9 ∨ a = 10 ∨ a = 11 ∨ a = 12 ∨
      a = 13 ∨ a = 14 ∨ a = 15 := by
    revert a; decide
  rcases h with rfl | rfl | rfl | rfl | rfl | rfl | rfl | rfl | rfl | rfl | rfl | rfl | rfl | rfl | rfl | rfl
  all_goals
    first
    | exact .inr ⟨_, rfl, rfl, rfl⟩
    | exact .inl ⟨rfl, by decide, by decide, by decide, by decide⟩

/-- The fields of encoded bytes: the opcode number, and the operand modulo 4096 (R95). -/
theorem encodeFields_fields (a : OpcodeField) (operand : Int) :
    ∃ byte0 byte1, encodeFields a operand = [byte0, byte1, 0] ∧ opcodeField byte0 = a ∧
      ((operandField byte0 byte1).toNat : Int) = operand % 4096 := by
  have h := a.isLt
  refine ⟨_, _, rfl, ?_, ?_⟩
  · apply BitVec.eq_of_toNat_eq
    rw [opcodeField_toNat]
    simp
    omega
  · rw [operandField_toNat]
    simp
    omega

end Sys2Proof
end

