-- ==== Sys2Proof/Laws/Memory.lean ====
section
/-!
SUPPORT. The laws of data memory: a read after a write, every other cell, and the canonical form. The laws of reads hold of
every list of entries, canonical or not.
-/
namespace Sys2Proof.Machine

@[simp] theorem Memory.read_nil (a : Nat) : Memory.read [] a = 0 := rfl

theorem Memory.mem_erase {m : Memory} {a : Nat} {e : Nat × Int} :
    e ∈ m.erase a ↔ e ∈ m ∧ e.1 ≠ a := by
  induction m with
  | nil => simp [Memory.erase]
  | cons f m ih =>
    by_cases hf : f.1 = a
    · simp only [Memory.erase, hf, if_true, ih, List.mem_cons]
      constructor
      · exact fun h => ⟨.inr h.1, h.2⟩
      · rintro ⟨rfl | h, he⟩
        · exact absurd hf he
        · exact ⟨h, he⟩
    · simp only [Memory.erase, hf, if_false, List.mem_cons, ih]
      constructor
      · rintro (rfl | h)
        · exact ⟨.inl rfl, hf⟩
        · exact ⟨.inr h.1, h.2⟩
      · rintro ⟨rfl | h, he⟩
        · exact .inl rfl
        · exact .inr ⟨h, he⟩

theorem Memory.mem_insert {m : Memory} {a : Nat} {w : Int} {e : Nat × Int} :
    e ∈ m.insert a w ↔ e = (a, w) ∨ e ∈ m := by
  induction m with
  | nil => simp [Memory.insert]
  | cons f m ih =>
    by_cases hf : a < f.1
    · simp [Memory.insert, hf]
    · simp only [Memory.insert, hf, if_false, List.mem_cons, ih]
      tauto

theorem Memory.read_erase (m : Memory) (a b : Nat) :
    (m.erase a).read b = if b = a then 0 else m.read b := by
  induction m with
  | nil => simp [Memory.erase]
  | cons f m ih =>
    by_cases hf : f.1 = a <;> by_cases hb : b = a <;> simp_all [Memory.erase, Memory.read, eq_comm]

theorem Memory.read_insert {m : Memory} {a : Nat} (h : ∀ e ∈ m, e.1 ≠ a) (w : Int) (b : Nat) :
    (m.insert a w).read b = if b = a then w else m.read b := by
  induction m with
  | nil => simp [Memory.insert, Memory.read, eq_comm]
  | cons f m ih =>
    have hf : f.1 ≠ a := h f (by simp)
    have ih := ih fun e he => h e (by simp [he])
    by_cases hlt : a < f.1
    · rcases eq_or_ne b a with rfl | hb
      · simp [Memory.insert, Memory.read, hlt]
      · simp [Memory.insert, Memory.read, hlt, hb, hb.symm]
    · by_cases hb : b = a
      · subst hb; simp [Memory.insert, Memory.read, hlt, hf, ih]
      · simp [Memory.insert, Memory.read, hlt, hb, ih]

/-- A read after a write: the written cell holds the value written, every other cell what it held. -/
theorem Memory.read_write (m : Memory) (a b : Nat) (w : Int) :
    (m.write a w).read b = if b = a then w else m.read b := by
  unfold Memory.write
  split
  · next h => subst h; exact Memory.read_erase m a b
  · rw [Memory.read_insert (fun e he => (Memory.mem_erase.1 he).2), Memory.read_erase]
    split <;> rfl

@[simp] theorem Memory.read_write_same (m : Memory) (a : Nat) (w : Int) : (m.write a w).read a = w := by
  simp [Memory.read_write]

@[simp] theorem Memory.read_write_other (m : Memory) {a b : Nat} (h : b ≠ a) (w : Int) :
    (m.write a w).read b = m.read b := by
  simp [Memory.read_write, h]

/-- Every entry after a write is the written one or was there before. -/
theorem Memory.mem_write {m : Memory} {a : Nat} {w : Int} {e : Nat × Int} (h : e ∈ m.write a w) :
    e = (a, w) ∨ e ∈ m := by
  unfold Memory.write at h
  split at h
  · exact .inr (Memory.mem_erase.1 h).1
  · exact (Memory.mem_insert.1 h).imp_right fun h => (Memory.mem_erase.1 h).1

theorem Memory.sorted_erase {m : Memory} (h : m.Pairwise fun e f => e.1 < f.1) (a : Nat) :
    (m.erase a).Pairwise fun e f => e.1 < f.1 := by
  induction m with
  | nil => exact h
  | cons f m ih =>
    obtain ⟨hf, hm⟩ := List.pairwise_cons.1 h
    by_cases hx : f.1 = a
    · simpa [Memory.erase, hx] using ih hm
    · simp only [Memory.erase, hx, if_false]
      exact List.pairwise_cons.2 ⟨fun e he => hf e (Memory.mem_erase.1 he).1, ih hm⟩

theorem Memory.sorted_insert {m : Memory} (h : m.Pairwise fun e f => e.1 < f.1) {a : Nat} (ha : ∀ e ∈ m, e.1 ≠ a)
    (w : Int) : (m.insert a w).Pairwise fun e f => e.1 < f.1 := by
  induction m with
  | nil => simp [Memory.insert]
  | cons f m ih =>
    obtain ⟨hf, hm⟩ := List.pairwise_cons.1 h
    have hne : f.1 ≠ a := ha f (by simp)
    by_cases hlt : a < f.1
    · simp only [Memory.insert, hlt, if_true]
      refine List.pairwise_cons.2 ⟨fun e he => ?_, h⟩
      rcases List.mem_cons.1 he with rfl | he
      · exact hlt
      · exact hlt.trans (hf e he)
    · simp only [Memory.insert, hlt, if_false]
      refine List.pairwise_cons.2 ⟨fun e he => ?_, ih hm fun e he => ha e (by simp [he])⟩
      rcases Memory.mem_insert.1 he with rfl | he
      · show f.1 < a
        omega
      · exact hf e he

/-- A write keeps the canonical form. -/
theorem Memory.wf_write {m : Memory} (h : m.Wf) (a : Nat) (w : Int) : (m.write a w).Wf := by
  refine ⟨?_, fun e he => ?_⟩
  · unfold Memory.write
    split
    · exact Memory.sorted_erase h.1 a
    · exact Memory.sorted_insert (Memory.sorted_erase h.1 a) (fun e he => (Memory.mem_erase.1 he).2) w
  · by_cases hw : w = Memory.unlisted
    · rw [Memory.write, if_pos hw] at he
      exact h.2 e (Memory.mem_erase.1 he).1
    · rcases Memory.mem_write he with rfl | he
      · exact hw
      · exact h.2 e he

/-- In a canonical memory an entry is listed exactly where a cell does not hold 0, with the value it holds. -/
theorem Memory.mem_iff_read {m : Memory} (h : m.Wf) (a : Nat) (v : Int) :
    (a, v) ∈ m ↔ m.read a = v ∧ v ≠ 0 := by
  obtain ⟨hs, hz⟩ := h
  induction m with
  | nil => simp; exact fun h => h.symm
  | cons f m ih =>
    obtain ⟨x, u⟩ := f
    obtain ⟨hf, hm⟩ := List.pairwise_cons.1 hs
    have hu : u ≠ 0 := hz (x, u) (by simp)
    have ih := ih hm fun e he => hz e (by simp [he])
    by_cases hx : x = a
    · subst hx
      have hnot : ∀ w, (x, w) ∉ m := fun w hw => absurd (hf _ hw) (lt_irrefl _)
      simp only [List.mem_cons, Prod.mk.injEq, true_and, Memory.read, if_true, hnot, or_false]
      constructor
      · rintro rfl; exact ⟨rfl, hu⟩
      · rintro ⟨rfl, -⟩; rfl
    · simp only [List.mem_cons, Prod.mk.injEq, Memory.read, hx, if_false, ih]
      constructor
      · rintro (⟨rfl, -⟩ | h)
        · exact absurd rfl hx
        · exact h
      · exact .inr

/-- A run of writes, as initialisation makes them, keeps the canonical form. -/
theorem Memory.wf_foldl_write {α : Type} (f : α → Nat) (g : α → Int) (l : List α) {m : Memory} (h : m.Wf) :
    (l.foldl (fun m e => m.write (f e) (g e)) m).Wf := by
  induction l generalizing m with
  | nil => exact h
  | cons e l ih => exact ih (Memory.wf_write h (f e) (g e))

end Sys2Proof.Machine
end

