-- ==== Sys2Proof/Laws/State.lean ====
section
/-!
SUPPORT. What each update of the state does to each of its fields: the simp set with which no proof unfolds a record update.
-/
namespace Sys2Proof.Machine

@[simp] theorem State.memWrite_cfg (s : State) (a : Nat) (v : Int) : (s.memWrite a v).cfg = s.cfg := rfl
@[simp] theorem State.memWrite_acc (s : State) (a : Nat) (v : Int) : (s.memWrite a v).acc = s.acc := rfl
@[simp] theorem State.memWrite_pc (s : State) (a : Nat) (v : Int) : (s.memWrite a v).pc = s.pc := rfl
@[simp] theorem State.memWrite_icount (s : State) (a : Nat) (v : Int) : (s.memWrite a v).icount = s.icount := rfl
@[simp] theorem State.memWrite_run (s : State) (a : Nat) (v : Int) : (s.memWrite a v).run = s.run := rfl
@[simp] theorem State.memWrite_haltCause (s : State) (a : Nat) (v : Int) : (s.memWrite a v).haltCause = s.haltCause := rfl
@[simp] theorem State.memWrite_mem (s : State) (a : Nat) (v : Int) : (s.memWrite a v).mem = s.mem.write a v := rfl
@[simp] theorem State.memWrite_diag (s : State) (a : Nat) (v : Int) : (s.memWrite a v).diag = s.diag := rfl
@[simp] theorem State.memWrite_img (s : State) (a : Nat) (v : Int) : (s.memWrite a v).img = s.img := rfl
@[simp] theorem State.memWrite_imgBytes (s : State) (a : Nat) (v : Int) : (s.memWrite a v).imgBytes = s.imgBytes := rfl
@[simp] theorem State.memWrite_imgLen (s : State) (a : Nat) (v : Int) : (s.memWrite a v).imgLen = s.imgLen := rfl

@[simp] theorem State.setAcc_cfg (s : State) (v : Int) : (s.setAcc v).cfg = s.cfg := rfl
@[simp] theorem State.setAcc_acc (s : State) (v : Int) : (s.setAcc v).acc = v := rfl
@[simp] theorem State.setAcc_pc (s : State) (v : Int) : (s.setAcc v).pc = s.pc := rfl
@[simp] theorem State.setAcc_icount (s : State) (v : Int) : (s.setAcc v).icount = s.icount := rfl
@[simp] theorem State.setAcc_run (s : State) (v : Int) : (s.setAcc v).run = s.run := rfl
@[simp] theorem State.setAcc_haltCause (s : State) (v : Int) : (s.setAcc v).haltCause = s.haltCause := rfl
@[simp] theorem State.setAcc_mem (s : State) (v : Int) : (s.setAcc v).mem = s.mem := rfl
@[simp] theorem State.setAcc_diag (s : State) (v : Int) : (s.setAcc v).diag = s.diag := rfl
@[simp] theorem State.setAcc_img (s : State) (v : Int) : (s.setAcc v).img = s.img := rfl
@[simp] theorem State.setAcc_imgBytes (s : State) (v : Int) : (s.setAcc v).imgBytes = s.imgBytes := rfl
@[simp] theorem State.setAcc_imgLen (s : State) (v : Int) : (s.setAcc v).imgLen = s.imgLen := rfl

@[simp] theorem State.appendDiag_cfg (s : State) (k : DiagKind) : (s.appendDiag k).cfg = s.cfg := rfl
@[simp] theorem State.appendDiag_acc (s : State) (k : DiagKind) : (s.appendDiag k).acc = s.acc := rfl
@[simp] theorem State.appendDiag_pc (s : State) (k : DiagKind) : (s.appendDiag k).pc = s.pc := rfl
@[simp] theorem State.appendDiag_icount (s : State) (k : DiagKind) : (s.appendDiag k).icount = s.icount := rfl
@[simp] theorem State.appendDiag_run (s : State) (k : DiagKind) : (s.appendDiag k).run = s.run := rfl
@[simp] theorem State.appendDiag_haltCause (s : State) (k : DiagKind) : (s.appendDiag k).haltCause = s.haltCause := rfl
@[simp] theorem State.appendDiag_mem (s : State) (k : DiagKind) : (s.appendDiag k).mem = s.mem := rfl
@[simp] theorem State.appendDiag_diag (s : State) (k : DiagKind) : (s.appendDiag k).diag = s.diag ++ [⟨k, s.pc⟩] := rfl
@[simp] theorem State.appendDiag_img (s : State) (k : DiagKind) : (s.appendDiag k).img = s.img := rfl
@[simp] theorem State.appendDiag_imgBytes (s : State) (k : DiagKind) : (s.appendDiag k).imgBytes = s.imgBytes := rfl
@[simp] theorem State.appendDiag_imgLen (s : State) (k : DiagKind) : (s.appendDiag k).imgLen = s.imgLen := rfl

@[simp] theorem State.raiseHalt_cfg (s : State) (c : HaltCause) : (s.raiseHalt c).cfg = s.cfg := rfl
@[simp] theorem State.raiseHalt_acc (s : State) (c : HaltCause) : (s.raiseHalt c).acc = s.acc := rfl
@[simp] theorem State.raiseHalt_pc (s : State) (c : HaltCause) : (s.raiseHalt c).pc = s.pc := rfl
@[simp] theorem State.raiseHalt_icount (s : State) (c : HaltCause) : (s.raiseHalt c).icount = s.icount := rfl
@[simp] theorem State.raiseHalt_run (s : State) (c : HaltCause) : (s.raiseHalt c).run = .halted := rfl
@[simp] theorem State.raiseHalt_haltCause (s : State) (c : HaltCause) : (s.raiseHalt c).haltCause = c := rfl
@[simp] theorem State.raiseHalt_mem (s : State) (c : HaltCause) : (s.raiseHalt c).mem = s.mem := rfl
@[simp] theorem State.raiseHalt_diag (s : State) (c : HaltCause) : (s.raiseHalt c).diag = s.diag := rfl
@[simp] theorem State.raiseHalt_img (s : State) (c : HaltCause) : (s.raiseHalt c).img = s.img := rfl
@[simp] theorem State.raiseHalt_imgBytes (s : State) (c : HaltCause) : (s.raiseHalt c).imgBytes = s.imgBytes := rfl
@[simp] theorem State.raiseHalt_imgLen (s : State) (c : HaltCause) : (s.raiseHalt c).imgLen = s.imgLen := rfl

@[simp] theorem State.complete_cfg (s : State) : s.complete.cfg = s.cfg := rfl
@[simp] theorem State.complete_acc (s : State) : s.complete.acc = s.acc := rfl
@[simp] theorem State.complete_pc (s : State) : s.complete.pc = s.pc + 3 := rfl
@[simp] theorem State.complete_icount (s : State) : s.complete.icount = s.icount + 1 := rfl
@[simp] theorem State.complete_run (s : State) : s.complete.run = s.run := rfl
@[simp] theorem State.complete_haltCause (s : State) : s.complete.haltCause = s.haltCause := rfl
@[simp] theorem State.complete_mem (s : State) : s.complete.mem = s.mem := rfl
@[simp] theorem State.complete_diag (s : State) : s.complete.diag = s.diag := rfl
@[simp] theorem State.complete_img (s : State) : s.complete.img = s.img := rfl
@[simp] theorem State.complete_imgBytes (s : State) : s.complete.imgBytes = s.imgBytes := rfl
@[simp] theorem State.complete_imgLen (s : State) : s.complete.imgLen = s.imgLen := rfl

@[simp] theorem State.memRead_eq (s : State) (a : Nat) : s.memRead a = s.mem.read a := rfl

@[simp] theorem State.haltEndOfImage_eq (s : State) : s.haltEndOfImage = s.raiseHalt .endOfImage := rfl

@[simp] theorem State.haltWatchdog_eq (s : State) :
    s.haltWatchdog = (s.appendDiag .watchdog).raiseHalt .watchdog := rfl

@[simp] theorem State.haltIllegalOpcode_eq (s : State) :
    s.haltIllegalOpcode = (s.appendDiag .illegalOpcode).raiseHalt .illegalOpcode := rfl

end Sys2Proof.Machine
end

