-- ==== Sys2Proof/Laws/Exec.lean ====
section
/-!
SUPPORT. Once and for all what an instruction can do and what a step can do.
-/
namespace Sys2Proof.Machine

/-- What an instruction does before the common end of R120: it sets the accumulator, writes a cell it may write, or logs an
event and for a load sets the accumulator to 0. -/
inductive Effect (s : State) : Instr → State → Prop where
  | const (b : Operand) : Effect s (.loadConst b) (s.setAcc (zext b))
  | load (b : Operand) (h : inBounds s.cfg (loadAddress b s) = true) :
      Effect s (.loadMem b) (s.setAcc (s.mem.read (loadAddress b s).toNat))
  | loadOut (b : Operand) (h : inBounds s.cfg (loadAddress b s) = false) :
      Effect s (.loadMem b) ((s.appendDiag .oobLoad).setAcc 0)
  | store (b : Operand) (h : inBounds s.cfg (absoluteAddress b) = true) :
      Effect s (.storeMem b) (s.memWrite b.toNat s.acc)
  | storeOut (b : Operand) (h : inBounds s.cfg (absoluteAddress b) = false) :
      Effect s (.storeMem b) (s.appendDiag .oobStore)
  | root (b : Operand) (hs : inBounds s.cfg (accAddress s) = true) (hd : inBounds s.cfg (absoluteAddress b) = true) :
      Effect s (.sqrt b) (s.memWrite b.toNat (isqrt (magnitude (s.mem.read s.acc.toNat)) : Nat))
  | rootOut (b : Operand) (h : (inBounds s.cfg (accAddress s) && inBounds s.cfg (absoluteAddress b)) = false) :
      Effect s (.sqrt b) (s.appendDiag .oobSqrt)

/-- Every instruction completes, with one of these effects and the common end. -/
theorem exec_effect (i : Instr) (s : State) : ∃ u, Effect s i u ∧ exec i s = .next u.complete := by
  cases i with
  | loadConst b => exact ⟨_, .const b, rfl⟩
  | loadMem b =>
    cases h : inBounds s.cfg (loadAddress b s) with
    | true => exact ⟨_, .load b h, by simp [exec, execLoadMem, h]⟩
    | false => exact ⟨_, .loadOut b h, by simp [exec, execLoadMem, h]⟩
  | storeMem b =>
    cases h : inBounds s.cfg (absoluteAddress b) with
    | true =>
      refine ⟨_, .store b h, ?_⟩
      simp only [exec, execStoreMem, h, if_true]
      rfl
    | false => exact ⟨_, .storeOut b h, by simp [exec, execStoreMem, h]⟩
  | sqrt b =>
    cases hs : inBounds s.cfg (accAddress s) <;> cases hd : inBounds s.cfg (absoluteAddress b)
    case true.true =>
      refine ⟨_, .root b hs hd, ?_⟩
      simp only [exec, execSqrt, hs, hd, Bool.and_self, if_true]
      rfl
    all_goals exact ⟨_, .rootOut b (by simp [hs, hd]), by simp [exec, execSqrt, hs, hd]⟩

/-- What is true before the common end of every instruction. -/
theorem Effect.frame {s u : State} {i : Instr} (h : Effect s i u) :
    u.cfg = s.cfg ∧ u.pc = s.pc ∧ u.icount = s.icount ∧ u.run = s.run ∧ u.haltCause = s.haltCause ∧ u.img = s.img := by
  cases h <;> simp

/-- A step of a running, launched machine is the engine's. -/
theorem step_running {s : State} {img : List Byte} (hr : s.run = .running) (hi : s.img = some img) :
    step s = engineStep img s := by
  simp [step, machineStep, hr, hi]

theorem step_halted {s : State} (hr : s.run = .halted) : step s = .fault .halted := by
  simp [step, machineStep, hr]

theorem step_notLaunched {s : State} (hr : s.run = .running) (hi : s.img = none) : step s = .fault .notLaunched := by
  simp [step, machineStep, hr, hi]

/-- What a step that has a next state does: one of the three halts, or one instruction (R110). -/
theorem step_cases {s t : State} (h : step s = .next t) :
    ∃ img, s.run = .running ∧ s.img = some img ∧
      ((decodeAt img s.pc = .endOfProgram ∧ t = s.raiseHalt .endOfImage) ∨
        ∃ a b, decodeAt img s.pc = .fields a b ∧
          ((s.cfg.watchdogLimit ≤ s.icount ∧ t = (s.appendDiag .watchdog).raiseHalt .watchdog) ∨
            (s.icount < s.cfg.watchdogLimit ∧
              ((dispatch a b = none ∧ t = (s.appendDiag .illegalOpcode).raiseHalt .illegalOpcode) ∨
                ∃ i u, dispatch a b = some i ∧ Effect s i u ∧ t = u.complete)))) := by
  cases hr : s.run with
  | halted => simp [step_halted hr] at h
  | running =>
    cases hi : s.img with
    | none => simp [step_notLaunched hr hi] at h
    | some img =>
      refine ⟨img, rfl, rfl, ?_⟩
      rw [step_running hr hi, engineStep] at h
      cases hw : decodeAt img s.pc with
      | endOfProgram => rw [hw] at h; cases h; exact .inl ⟨rfl, rfl⟩
      | fields a b =>
        rw [hw] at h
        refine .inr ⟨a, b, rfl, ?_⟩
        by_cases hl : s.cfg.watchdogLimit ≤ s.icount
        · simp only [hl, if_true] at h; cases h; exact .inl ⟨hl, rfl⟩
        · refine .inr ⟨not_le.1 hl, ?_⟩
          simp only [hl, if_false] at h
          cases hd : dispatch a b with
          | none => rw [hd] at h; cases h; exact .inl ⟨rfl, rfl⟩
          | some i =>
            obtain ⟨u, hu, he⟩ := exec_effect i s
            rw [hd] at h
            simp only [he] at h
            cases h
            exact .inr ⟨i, u, rfl, hu, rfl⟩

/-- The decoder answers "end of program" exactly when fewer than 3 bytes remain (R111, R115). -/
theorem decodeAt_endOfProgram_iff (img : List Byte) (off : Nat) :
    decodeAt img off = .endOfProgram ↔ img.length < off + 3 := by
  have hl : (img.drop off).length = img.length - off := List.length_drop
  unfold decodeAt
  match h : img.drop off with
  | [] => rw [h] at hl; simp [unpack] at hl ⊢; omega
  | [_] => rw [h] at hl; simp [unpack] at hl ⊢; omega
  | [_, _] => rw [h] at hl; simp [unpack] at hl ⊢; omega
  | _ :: _ :: _ :: _ => rw [h] at hl; simp [unpack] at hl ⊢; omega

end Sys2Proof.Machine
end

