-- ==== Sys2Proof/Laws/Launch.lean ====
section
/-!
SUPPORT. What a launch leaves, and that reset, launch and the placing of a word keep memory canonical.
-/
namespace Sys2Proof.Machine

/-- A launch that is not refused leaves the state of R204, and its inputs passed every check. -/
theorem launch_next {c : Config} {img : List Byte} {init : InitData} {s : State} (h : launch c img init = .next s) :
    s = launchState c img init ∧ WellFormed.config c = true ∧ WellFormed.image c img = true ∧
      WellFormed.initAddresses c init = true ∧ WellFormed.initValues c init = true ∧
      WellFormed.initKeys init = true := by
  unfold launch at h
  split at h
  · cases h
  split at h
  · cases h
  split at h
  · cases h
  split at h
  · cases h
  split at h
  · cases h
  cases h
  simp_all

theorem Memory.wf_nil : Memory.Wf [] := ⟨List.Pairwise.nil, by simp⟩

theorem State.reset_mem_wf : State.reset.mem.Wf := Memory.wf_nil

theorem State.memWrite_wf {s : State} (h : s.mem.Wf) (a : Nat) (v : Int) : (s.memWrite a v).mem.Wf :=
  Memory.wf_write h a v

theorem initMemory_wf (init : InitData) : (initMemory init).Wf := Memory.wf_foldl_write _ _ init Memory.wf_nil

@[simp] theorem State.withFetchWord_mem (s : State) (nbits w : Nat) : (s.withFetchWord nbits w).mem = s.mem := rfl

@[simp] theorem State.withFetchWord_acc (s : State) (nbits w : Nat) : (s.withFetchWord nbits w).acc = s.acc := rfl

@[simp] theorem State.withFetchWord_pc (s : State) (nbits w : Nat) : (s.withFetchWord nbits w).pc = s.pc := rfl

/-- The bytes placed at an offset are what lies there. -/
theorem placeBytes_drop (img : List Byte) (off : Nat) (bytes : List Byte) :
    (placeBytes img off bytes).drop off = bytes ++ img.drop (off + bytes.length) := by
  unfold placeBytes
  rw [List.append_assoc]
  have hl : ((img ++ List.replicate (off - img.length) 0).take off).length = off := by
    simp
    omega
  generalize (img ++ List.replicate (off - img.length) 0).take off = p at hl
  subst hl
  simp

end Sys2Proof.Machine
end

