-- ==== Sys2Proof/Laws/PerInstr.lean ====
section
/-!
SUPPORT. One family of statements about each instruction as syntax: its code and its operand, through the dispatch table,
give it back (30_encoding.md R86, 40_fetch_decode_dispatch.md R116).
-/
namespace Sys2Proof.Laws.Dispatch

/-- The dispatch table sends the instruction's code and operand to the instruction. -/
def Statement (i : Instr) : Prop := dispatch i.opcode i.operand = some i

theorem loadMem (b : Operand) : Statement (.loadMem b) := rfl

theorem sqrt (b : Operand) : Statement (.sqrt b) := rfl

theorem loadConst (b : Operand) : Statement (.loadConst b) := rfl

theorem storeMem (b : Operand) : Statement (.storeMem b) := rfl

end Sys2Proof.Laws.Dispatch
end

