-- ==== Sys2Proof/Tests/Slice0.lean ====
section
/-!
SUPPORT. Small tests: ill-formed inputs refused, words decoded that were written out from the format, one or two steps of
each instruction from 95_test_vectors.md, and for every statement with hypotheses a state and operands that meet them.
-/
namespace Sys2Proof.Tests

open Sys2Proof.Machine

/-- A small machine (95_test_vectors.md, program P8's memory of 16 cells). -/
def small : Config := { capacity := 16, cellBits := 32, watchdogLimit := 100, pcBits := 32 }

/-- The machine of the test vectors: 65536 cells of 32 bits. -/
def full : Config := { capacity := 65536, cellBits := 32, watchdogLimit := 100, pcBits := 32 }

/-- A launched machine with a given accumulator, initial memory and image. -/
def machine (c : Config) (acc : Int) (init : InitData) (img : List Byte) : State :=
  { launchState c img init with acc := acc }

/-- A part of the next state, if there is one. -/
def part {α : Type} (o : Host.Outcome State Fault Refusal) (f : State → α) : Option α :=
  match o with
  | .next t => some (f t)
  | .fault _ => none
  | .refused _ => none

/-! Ill-formed inputs (Sys2Proof/WellFormed.lean), each refused by its check and by the launch. -/

theorem test_wf_config : WellFormed.config { small with capacity := 0 } = false ∧
    WellFormed.config { small with cellBits := 12 } = false ∧
    WellFormed.config { small with watchdogLimit := 0 } = false ∧ WellFormed.config small = true := by decide

theorem test_wf_image : WellFormed.image { small with pcBits := 1 } [0, 0] = false ∧
    WellFormed.image { small with pcBits := 1 } [0] = true := by decide

theorem test_wf_init_addresses : WellFormed.initAddresses small [(-1, 0)] = false ∧
    WellFormed.initAddresses small [(16, 0)] = false ∧ WellFormed.initAddresses small [(0, 1), (15, 1)] = true := by decide

theorem test_wf_init_values : WellFormed.initValues small [(0, 2147483648)] = false ∧
    WellFormed.initValues small [(0, -2147483649)] = false ∧
    WellFormed.initValues small [(0, 2147483647), (1, -2147483648)] = true := by decide

theorem test_wf_init_keys : WellFormed.initKeys [(3, 1), (4, 1), (3, 2)] = false ∧
    WellFormed.initKeys [(3, 1), (4, 1)] = true := by decide

theorem test_wf_reserved_byte : WellFormed.reservedByte 1 = false ∧ WellFormed.reservedByte 0 = true := by decide

theorem test_launch_refusals :
    launch { small with watchdogLimit := 0 } [] [] = .refused .badParameters ∧
    launch { small with pcBits := 1 } [0, 0] [] = .refused .imageTooLong ∧
    launch small [] [(16, 0)] = .refused .initAddressOutOfRange ∧
    launch small [] [(0, 2147483648)] = .refused .initValueOutOfRange ∧
    launch small [] [(0, 1), (0, 2)] = .refused .initAddressRepeated :=
  ⟨rfl, rfl, rfl, rfl, rfl⟩

/-! Words written out bit by bit from 30_encoding.md R81: A in byte 0 bits 7 to 4, B[11:8] in its bits 3 to 0, B[7:0] in
byte 1. -/

/-- A = 1010, B = 0001 11110100 = 500 (vector E2). -/
theorem test_decode_loadConst : decode [0b10100001, 0b11110100, 0b00000000] = .ok (.loadConst 500, []) := by decide

/-- A = 0000, B = 0001 00000000 = 256 (vector E5). -/
theorem test_decode_loadMem : decode [0b00000001, 0b00000000, 0b00000000] = .ok (.loadMem 256, []) := by decide

/-- A = 1110, B = 1111 11111111 = 4095 (vector E8). -/
theorem test_decode_storeMem : decode [0b11101111, 0b11111111, 0b00000000] = .ok (.storeMem 4095, []) := by decide

/-- A = 0010, B = 0001 11110100 = 500 (vector E9). -/
theorem test_decode_sqrt : decode [0b00100001, 0b11110100, 0b00000000] = .ok (.sqrt 500, []) := by decide

/-- Byte 2 not zero (vector E10), and bytes that follow. -/
theorem test_decode_reserved_byte : decode [0xA0, 0x2A, 0xFF, 0x77] = .ok (.loadConst 42, [0x77]) := by decide

/-- The twelve illegal opcodes (vectors E11, E13 to E15). -/
theorem test_decode_illegal :
    [0x10, 0x30, 0x40, 0x50, 0x60, 0x70, 0x80, 0x90, 0xB1, 0xC0, 0xD0, 0xF0].all
      (fun w : Nat => decodeTableWord 24 (w * 65536) = none) = true := by decide

/-- The words of the opcode table as the table numbers them (R101), and a window of two bytes (vector E16). -/
theorem test_decode_table_words :
    decodeTableWord 24 0xA1F400 = some (.loadConst 500) ∧ decodeTableWord 24 0x010000 = some (.loadMem 256) ∧
    decodeTableWord 24 0xE00700 = some (.storeMem 7) ∧ decodeTableWord 24 0x21F400 = some (.sqrt 500) ∧
    decodeAt [0xA0, 0x2A] 0 = .endOfProgram := by decide

/-- The encoder's vectors (95_test_vectors.md section 2.1). -/
theorem test_encode :
    encodeFields 10 500 = [0xA1, 0xF4, 0] ∧ encodeFields 14 4095 = [0xEF, 0xFF, 0] ∧ encodeFields 2 4096 = [0x20, 0, 0] ∧
    encodeFields 10 8191 = [0xAF, 0xFF, 0] ∧ encodeFields 10 (-1) = [0xAF, 0xFF, 0] ∧
    encodeFields 10 5000 = [0xA3, 0x88, 0] := by decide

/-! One step of each instruction, through fetch and decode. -/

/-- Vector LC3: the constant is unsigned and the old value is discarded. -/
theorem test_loadConst : part (step (machine full (-5) [] [0xAF, 0xFF, 0x00])) (fun t => (t.acc, t.pc, t.icount, t.diag)) =
    some (4095, 3, 1, []) := by decide

/-- Vector LM6: a negative base with the sum in bounds. -/
theorem test_loadMem_negative_base :
    part (step (machine full (-3) [(7, 77)] [0x00, 0x0A, 0x00])) (fun t => (t.acc, t.diag)) = some (77, []) := by decide

/-- Vector LM8: the sum does not wrap. -/
theorem test_loadMem_no_wrap :
    part (step (machine full 2147483647 [] [0x0F, 0xFF, 0x00])) (fun t => (t.acc, t.diag, t.pc)) =
      some (0, [⟨.oobLoad, 0⟩], 3) := by decide

/-- Vector SM3: storing 0 is a write, after which the cell is not listed. -/
theorem test_storeMem_zero : part (step (machine full 0 [(3, 9)] [0xE0, 0x03, 0x00])) (fun t => t.mem) = some [] := by decide

/-- Vector SM7: out of bounds, nothing written. -/
theorem test_storeMem_out : part (step (machine small 3 [] [0xE0, 0x10, 0x00])) (fun t => (t.mem, t.acc, t.diag)) =
    some ([], 3, [⟨.oobStore, 0⟩]) := by decide

/-- Vector SQ7: the magnitude of the most negative value. -/
theorem test_sqrt_most_negative :
    part (step (machine full 1 [(1, -2147483648)] [0x20, 0x02, 0x00])) (fun t => (t.mem, t.acc)) =
      some ([(1, -2147483648), (2, 46340)], 1) := by decide

/-- Vector SQ1: in place, the old value is the one used. -/
theorem test_sqrt_in_place : part (step (machine full 503 [(503, 9)] [0x21, 0xF7, 0x00])) (fun t => (t.mem, t.acc)) =
    some ([(503, 3)], 503) := by decide

/-! Halts and launch (95_test_vectors.md section 2.6). -/

/-- Vector H1: the empty image. -/
theorem test_empty_image : part (step (machine small 0 [] [])) (fun t => (t.haltCause, t.pc, t.icount, t.diag)) =
    some (.endOfImage, 0, 0, []) := by decide

/-- Vector H2: a truncated image. -/
theorem test_truncated_image : (launchState small [0xA0, 0x05] []).diag = [⟨.truncatedImage, 0⟩] ∧
    part (step (launchState small [0xA0, 0x05] [])) (fun t => (t.haltCause, t.pc)) = some (.endOfImage, 0) := by decide

/-- Vector H3: an illegal opcode. -/
theorem test_illegal_opcode :
    part (step (machine small 0 [] [0x10, 0, 0])) (fun t => (t.run, t.haltCause, t.pc, t.icount, t.diag)) =
      some (.halted, .illegalOpcode, 0, 0, [⟨.illegalOpcode, 0⟩]) := by decide

/-- Vector H4's second step: the watchdog with L = 1. -/
theorem test_watchdog :
    part (step { machine { small with watchdogLimit := 1 } 1 [] [0xA0, 1, 0, 0xA0, 2, 0] with pc := 3, icount := 1 })
      (fun t => (t.haltCause, t.pc, t.icount, t.acc, t.diag)) = some (.watchdog, 3, 1, 1, [⟨.watchdog, 3⟩]) := by decide

/-- Vector H7's second step: the end of the image comes before the watchdog. -/
theorem test_end_before_watchdog :
    part (step { machine { small with watchdogLimit := 1 } 1 [] [0xA0, 1, 0] with pc := 3, icount := 1 })
      (fun t => (t.haltCause, t.diag)) = some (.endOfImage, []) := by decide

/-- Vector H6: snapshots after program P2, with both bounds clamped. -/
theorem test_snapshot :
    snapshot { machine full 0 [(501, 1), (502, 2), (509, 9)] [] with run := .halted } (-10) 502 = .next [(501, 1)] ∧
    snapshot { machine full 0 [(501, 1), (502, 2), (509, 9)] [] with run := .halted } 505 100000 = .next [(509, 9)] ∧
    snapshot { machine full 0 [(501, 1)] [] with run := .halted } 510 500 = .next [] := ⟨rfl, rfl, rfl⟩

/-- Square roots of 43_sqrt.md R158. -/
theorem test_isqrt : [8, 24, 99, 4095, 4096, 65535, 65536, 2147395599, 2147395600, 2147483647].map isqrt =
    [2, 4, 9, 63, 64, 255, 256, 46339, 46340, 46340] := by decide

/-- The first step after reset runs the word placed there, whatever the watchdog's open ceiling is. -/
theorem test_reset_runs_word :
    part (step (State.reset.withFetchWord 24 0xA1F400)) (fun t => (t.acc, t.pc, t.icount)) = some (500, 3, 1) := by decide

/-! Witnesses: what meets the hypotheses of each statement that has any, at the boundaries of its clauses. -/

theorem test_witness_EncodeOfDecodeNeedsZeroByte2 :
    decode [0xA0, 0x2A, 0x00] = .ok (.loadConst 42, []) ∧ decode [0xA0, 0x2A, 0xFF] = .ok (.loadConst 42, []) := by decide

theorem test_witness_DecoderInterface :
    ([0xA0, 0x2A] : List Byte).length < 0 + 3 ∧ ([0xA0, 0x2A, 1] : List Byte)[0 + 2]? = some 1 ∧
    ([0xA0, 0x2A, 1] : List Byte)[0 + 1]? = some 0x2A ∧ ([0xA0, 0x2A, 1] : List Byte)[0]? = some 0xA0 := by decide

theorem test_witness_DispatchTableEntries :
    ([1, 3, 9, 11, 13, 15] : List OpcodeField).all (fun a => a ≠ 0 ∧ a ≠ 2 ∧ a ≠ 10 ∧ a ≠ 14) = true := by decide

theorem test_witness_DecoderIsTotal : ([0xA0, 0x2A] : List Byte).length < 3 := by decide

/-- Program P1 as a description. -/
def progP1 : List SourceInstr := [⟨"LOAD_CONST", 42, none⟩, ⟨"STORE_MEM", 7, some "cell 7"⟩]

theorem test_witness_AssemblyIsOneToOne : assemble progP1 = .ok [0xA0, 0x2A, 0, 0xE0, 7, 0] ∧
    progP1[1]? = some ⟨"STORE_MEM", 7, some "cell 7"⟩ := by decide

/-- D0's scenario S8 meets one side, program P1 the other. -/
theorem test_witness_UnknownMnemonicAborts :
    assemble [⟨"SQRT", 1, none⟩, ⟨"UNKNOWN", 1, none⟩] = .error (.unknownMnemonic "UNKNOWN") ∧
    mnemonicCode "UNKNOWN" = none ∧ (10, 42) ∈ decodeAll [0xA0, 0x2A, 0, 0xE0, 7, 0] := by decide

/-- The validator warns of an operand above its range and of a negative one, and of 4096 for STORE_MEM only (R98). -/
theorem test_rangeWarnings :
    rangeWarnings [⟨10, 8192, none⟩, ⟨0, 8191, none⟩, ⟨14, 4096, none⟩, ⟨2, -1, none⟩, ⟨10, 4096, none⟩] = [0, 2, 3] := by
  decide

theorem test_witness_LoadConstResult : small.Wf ∧ { small with cellBits := 13 }.Wf := by decide

/-- LOAD_MEM at 0 and at the last cell (both in bounds), at -1 and at `CAPACITY` (both out). -/
theorem test_witness_LoadMemResult :
    part (exec (.loadMem 1) (machine small (-1) [(0, 7)] [])) (fun t => t.acc) = some 7 ∧
    part (exec (.loadMem 5) (machine small 10 [(15, 8)] [])) (fun t => t.acc) = some 8 ∧
    part (exec (.loadMem 2) (machine small (-3) [(0, 7)] [])) (fun t => (t.acc, t.diag)) = some (0, [⟨.oobLoad, 0⟩]) ∧
    part (exec (.loadMem 6) (machine small 10 [(15, 8)] [])) (fun t => (t.acc, t.diag)) = some (0, [⟨.oobLoad, 0⟩]) := by
  decide

/-- STORE_MEM at the last cell and at `CAPACITY`. -/
theorem test_witness_StoreMemResult :
    part (exec (.storeMem 15) (machine small 3 [] [])) (fun t => (t.mem, t.diag)) = some ([(15, 3)], []) ∧
    part (exec (.storeMem 16) (machine small 3 [] [])) (fun t => (t.mem, t.diag)) = some ([], [⟨.oobStore, 0⟩]) := by decide

/-- SQRT with both in bounds at their last cell, and the source out on either side (vector SQ10). -/
theorem test_witness_SqrtResult :
    part (exec (.sqrt 15) (machine small 15 [(15, 9)] [])) (fun t => (t.mem, t.diag)) = some ([(15, 3)], []) ∧
    part (exec (.sqrt 2) (machine small (-3) [] [])) (fun t => (t.mem, t.diag)) = some ([], [⟨.oobSqrt, 0⟩]) ∧
    part (exec (.sqrt 2) (machine small 16 [] [])) (fun t => (t.mem, t.diag)) = some ([], [⟨.oobSqrt, 0⟩]) := by decide

/-- SQRT with the destination out, and with both out: one event (vectors SQ13, SQ14). -/
theorem test_witness_SqrtResult_destination :
    part (exec (.sqrt 16) (machine small 3 [(3, 9)] [])) (fun t => (t.mem, t.diag)) = some ([(3, 9)], [⟨.oobSqrt, 0⟩]) ∧
    part (exec (.sqrt 16) (machine small 16 [] [])) (fun t => (t.mem, t.diag)) = some ([], [⟨.oobSqrt, 0⟩]) := by decide

theorem test_witness_OutOfBoundsNeverHalts_loads :
    ¬(0 ≤ (machine small (-1) [] []).acc + (0#12).toNat ∧
      (machine small (-1) [] []).acc + (0#12).toNat < (machine small (-1) [] []).cfg.capacity) := by decide

theorem test_witness_OutOfBoundsNeverHalts_stores :
    small.capacity ≤ (16#12).toNat ∧
      (¬(0 ≤ (machine small 16 [] []).acc ∧ (machine small 16 [] []).acc < small.capacity) ∨ small.capacity ≤ (0#12).toNat) :=
  by decide

theorem test_witness_OobLoadEvent :
    ¬(0 ≤ (machine small 15 [] []).acc + (1#12).toNat ∧
      (machine small 15 [] []).acc + (1#12).toNat < (machine small 15 [] []).cfg.capacity) := by decide

theorem test_witness_OobStoreEvent : (machine small 3 [] []).cfg.capacity ≤ (16#12).toNat := by decide

theorem test_witness_OobSqrtEvent :
    (¬(0 ≤ (machine small (-1) [] []).acc ∧ (machine small (-1) [] []).acc < (machine small (-1) [] []).cfg.capacity) ∨
      (machine small (-1) [] []).cfg.capacity ≤ (0#12).toNat) ∧
    part (step (machine small 0 [] [0x20, 0, 0])) (fun t => t.pc) = some 3 ∧
    part (launch small [0xA0] []) (fun t => t.diag) = some [⟨.truncatedImage, 0⟩] ∧
    part (launch small [0xA0, 0, 0] []) (fun t => t.diag) = some [] := by decide

theorem test_witness_SqrtTakesMagnitude :
    full.InRange (-2147483648) ∧ 0 ≤ (machine full 65535 [] []).acc ∧
    (machine full 65535 [] []).acc < (machine full 65535 [] []).cfg.capacity ∧
    (4095#12).toNat < (machine full 65535 [] []).cfg.capacity := by decide

theorem test_witness_SqrtMonotoneAndFixedPoints : 15 ≤ 16 ∧ 6 ≤ 2 * 3 ∧ (15 : Nat) ≠ 0 := by decide

theorem test_witness_SqrtResultFitsCell :
    2 ≤ full.cellBits ∧ full.InRange (-2147483648) ∧ { full with cellBits := 2 }.InRange (-2) := by decide

/-- LOAD_MEM 4095 at 0, out of bounds of 16 cells, then STORE_MEM 1. -/
def oobThenStore : State := machine small 0 [] [0x0F, 0xFF, 0x00, 0xE0, 0x01, 0x00]

theorem test_witness_OobLoadThenNextInstruction :
    oobThenStore.run = .running ∧ oobThenStore.img = some [0x0F, 0xFF, 0x00, 0xE0, 0x01, 0x00] ∧
    oobThenStore.icount + 1 < oobThenStore.cfg.watchdogLimit ∧
    decodeAt oobThenStore.imgBytes oobThenStore.pc = .fields 0 4095 ∧
    ¬(0 ≤ oobThenStore.acc + (4095#12).toNat ∧ oobThenStore.acc + (4095#12).toNat < oobThenStore.cfg.capacity) ∧
    decodeAt oobThenStore.imgBytes (oobThenStore.pc + 3) = .fields 14 1 ∧ dispatch 14 1 = some (.storeMem 1) := by decide

/-- Program P1 with the last cell of 16 in place of 7. -/
def constThenStore : State := machine small 0 [] [0xA0, 0x2A, 0x00, 0xE0, 0x0F, 0x00]

theorem test_witness_ConstThenStore :
    constThenStore.run = .running ∧ constThenStore.img = some [0xA0, 0x2A, 0x00, 0xE0, 0x0F, 0x00] ∧
    constThenStore.icount + 1 < constThenStore.cfg.watchdogLimit ∧
    decodeAt constThenStore.imgBytes constThenStore.pc = .fields 10 42 ∧
    decodeAt constThenStore.imgBytes (constThenStore.pc + 3) = .fields 14 15 ∧
    (15#12).toNat < constThenStore.cfg.capacity := by decide

/-- LOAD_CONST 5, LOAD_MEM 0, STORE_MEM 15. -/
def copyCell : State := machine small 0 [(5, -36)] [0xA0, 5, 0, 0, 0, 0, 0xE0, 15, 0]

theorem test_witness_CopyOneCell :
    copyCell.run = .running ∧ copyCell.img = some [0xA0, 5, 0, 0, 0, 0, 0xE0, 15, 0] ∧
    copyCell.icount + 2 < copyCell.cfg.watchdogLimit ∧ decodeAt copyCell.imgBytes copyCell.pc = .fields 10 5 ∧
    decodeAt copyCell.imgBytes (copyCell.pc + 3) = .fields 0 0 ∧
    decodeAt copyCell.imgBytes (copyCell.pc + 6) = .fields 14 15 ∧
    (5#12).toNat < copyCell.cfg.capacity ∧ (15#12).toNat < copyCell.cfg.capacity := by decide

/-- LOAD_CONST 509, SQRT 509 (the last pair of program P2). -/
def rootInPlace : State := machine full 0 [(509, 81)] [0xA1, 0xFD, 0x00, 0x21, 0xFD, 0x00]

theorem test_witness_SqrtInPlace :
    rootInPlace.run = .running ∧ rootInPlace.img = some [0xA1, 0xFD, 0x00, 0x21, 0xFD, 0x00] ∧
    rootInPlace.icount + 1 < rootInPlace.cfg.watchdogLimit ∧
    decodeAt rootInPlace.imgBytes rootInPlace.pc = .fields 10 509 ∧
    decodeAt rootInPlace.imgBytes (rootInPlace.pc + 3) = .fields 2 509 ∧
    (509#12).toNat < rootInPlace.cfg.capacity := by decide

/-- At the last count below the ceiling. -/
def lastCount : State := { constThenStore with icount := 99 }

theorem test_witness_StepRunsDecodedInstruction :
    lastCount.run = .running ∧ lastCount.img = some [0xA0, 0x2A, 0x00, 0xE0, 0x0F, 0x00] ∧
    lastCount.icount < lastCount.cfg.watchdogLimit ∧
    decode (lastCount.imgBytes.drop lastCount.pc) = .ok (.loadConst 42, [0xE0, 0x0F, 0x00]) := by decide

/-- A halted machine past its ceiling, with no image where `pc` stands. -/
theorem test_witness_FetchWordRunsNext :
    { lastCount with run := .halted, haltCause := .watchdog, icount := 100, pc := 9 }.cfg.Wf ∧
    decodeTableWord 24 0xEFFF00 = some (.storeMem 4095) := by decide

/-- One byte and two bytes short, with the watchdog expired. -/
theorem test_witness_EndOfImageHalts :
    constThenStore.run = .running ∧ constThenStore.img = some constThenStore.imgBytes ∧
    constThenStore.imgBytes.length < { constThenStore with pc := 4, icount := 100 }.pc + 3 ∧
    constThenStore.imgBytes.length % 3 = 0 ∧ { constThenStore with pc := 6 }.pc % 3 = 0 := by decide

/-- Each of the three halts is a step to a halted state. -/
theorem test_witness_HaltingStepChangesNothingElse :
    part (step { constThenStore with pc := 6 }) (fun t => t.run) = some .halted ∧
    part (step { constThenStore with icount := 100 }) (fun t => t.run) = some .halted ∧
    part (step (machine small 0 [] [0x10, 0, 0])) (fun t => t.run) = some .halted := by decide

theorem test_witness_WatchdogHalts :
    { constThenStore with pc := 3, icount := 100 }.pc + 3 ≤ constThenStore.imgBytes.length ∧
    constThenStore.cfg.watchdogLimit ≤ { constThenStore with pc := 3, icount := 100 }.icount ∧
    constThenStore.run = .running ∧ constThenStore.img = some constThenStore.imgBytes := by decide

/-- Opcode 1, between 0 and 14, and opcode 15. -/
theorem test_witness_IllegalOpcodeHalts :
    (machine small 0 [] [0x10, 0, 0]).run = .running ∧ (machine small 0 [] [0x10, 0, 0]).img = some [0x10, 0, 0] ∧
    (machine small 0 [] [0x10, 0, 0]).icount < small.watchdogLimit ∧
    ([0x10, 0, 0] : List Byte).drop (machine small 0 [] [0x10, 0, 0]).pc = [0x10, 0, 0] ∧
    [0x10, 0xFF].all (fun b : Byte => b.toNat / 16 ≠ 0 ∧ b.toNat / 16 ≠ 2 ∧ b.toNat / 16 ≠ 10 ∧ b.toNat / 16 ≠ 14) = true := by
  decide

theorem test_witness_NoStepWhenHaltedOrUnlaunched : { lastCount with run := .halted }.run = .halted := by decide

theorem test_witness_RunningMachineAlwaysSteps : oobThenStore.run = .running ∧ oobThenStore.img = some oobThenStore.imgBytes :=
  by decide

theorem test_witness_PcOnlyAdvancesByThree :
    part (step constThenStore) (fun t => (t.run, t.pc)) = some (.running, 3) ∧
    part (step { constThenStore with pc := 6 }) (fun t => (t.run, t.pc)) = some (.halted, 6) ∧
    (runFor (1 + 1) constThenStore).run = .running ∧ constThenStore.img ≠ none := by decide

theorem test_witness_WhoWritesAccAndMemory :
    part (step constThenStore) (fun t => decide (t.acc ≠ constThenStore.acc)) = some true ∧
    part (step (machine small 3 [] [0xE0, 0x0F, 0x00])) (fun t => (t.mem.read 15, (machine small 3 [] []).mem.read 15)) =
      some (3, 0) := by decide

theorem test_witness_HighCellsNeverWritten : 4096 ≤ full.capacity ∧ 4096 ≤ { small with capacity := 4096 }.capacity := by decide

/-- A launched machine has the invariant (the hypothesis of StepKeepsInvariant, EveryRunHalts, EveryRunIsClassified). -/
theorem test_witness_invariant_running :
    constThenStore.Inv ∧ constThenStore.run = .running ∧ constThenStore.img ≠ none ∧
    part (step constThenStore) (fun t => t.acc) = some 42 :=
  ⟨⟨by decide, by decide, by decide, by decide, by decide, by decide, by decide, by decide, by decide, by decide⟩,
    by decide, by decide, by decide⟩

/-- A halted machine with the invariant and a nonzero cell (the hypothesis of SnapshotHoldsNonzeroCells). -/
theorem test_witness_SnapshotHoldsNonzeroCells :
    { machine small 0 [(5, -36), (15, 1)] [] with run := .halted, haltCause := .endOfImage }.Inv :=
  ⟨by decide, by decide, by decide, by decide, by decide, by decide, by decide, by decide, by decide, by decide⟩

theorem test_witness_ResetHasInvariant : small.Wf := by decide

/-- A log that matches, on a machine with the invariant that goes on: one event of the launch. -/
theorem test_witness_StepKeepsLogMatching :
    (launchState small [0xA0, 5, 0, 0xE0] []).LogMatches ∧ (launchState small [0xA0, 5, 0, 0xE0] []).Inv ∧
    part (step (launchState small [0xA0, 5, 0, 0xE0] [])) (fun t => t.pc) = some 3 :=
  ⟨⟨[⟨.truncatedImage, 0⟩], rfl, by simp [DiagKind.nonFatal]⟩,
    ⟨by decide, by decide, by decide, by decide, by decide, by decide, by decide, by decide, by decide, by decide⟩,
    by decide⟩

theorem test_witness_LogIsNeverRead :
    part (step { oobThenStore with diag := [⟨.oobStore, 0⟩] }) (fun t => t.diag) = some [⟨.oobStore, 0⟩, ⟨.oobLoad, 0⟩] ∧
    step State.reset = .fault .notLaunched := ⟨by decide, rfl⟩

theorem test_witness_ReservedByteIsIgnored :
    constThenStore.pc % 3 = 0 ∧ ([0xA0, 0x2A, 0x00] : List Byte).length = ([0xA0, 0x2A, 0xFF] : List Byte).length ∧
    [0, 1, 3, 4].all (fun k => k % 3 ≠ 2 ∧ ([0xA0, 0x2A, 0x00] : List Byte)[k]? = ([0xA0, 0x2A, 0xFF] : List Byte)[k]?) =
      true := by decide

theorem test_witness_CanonicalMemoryIsUnique : Memory.Wf [(5, -36), (15, 1)] ∧ ¬Memory.Wf [(15, 1), (5, -36)] ∧
    ¬Memory.Wf [(5, 0)] := by decide

/-- A launch there is (the hypothesis of the statements about launches and whole runs). -/
theorem test_witness_launch :
    launch small [0xA0, 5, 0, 0xE0] [(5, -36), (15, 2147483647)] =
      .next (launchState small [0xA0, 5, 0, 0xE0] [(5, -36), (15, 2147483647)]) := rfl

/-- Each way to end has a run: program P6's short image, an illegal opcode, the watchdog with L = 1 (vectors H3, H4). -/
theorem test_witness_HowEveryRunEnds :
    (launchState small [0xA0, 5, 0, 0xE0] []).final.haltCause = .endOfImage ∧
    (launchState small [0xA0, 5, 0, 0x10, 0, 0] []).final.haltCause = .illegalOpcode ∧
    (launchState { small with watchdogLimit := 1 } [0xA0, 1, 0, 0xA0, 2, 0] []).final.haltCause = .watchdog := by decide

theorem test_witness_AccAndMemoryStartAtZero :
    ([(5, -36), (15, 1)] : InitData).all (fun e => e.1 ≠ ((4 : Nat) : Int)) = true ∧
    ((5 : Int), (-36 : Int)) ∈ ([(5, -36), (15, 1)] : InitData) := by decide

theorem test_witness_HostLifeCycle :
    { lastCount with run := .halted }.run = .halted ∧ lastCount.run = .running ∧ lastCount.img = some lastCount.imgBytes ∧
    State.reset.img = none := by decide

end Sys2Proof.Tests
end

section
/-!
PROOFS about 10_state.md: what the registers and memory hold before the first step.
-/
namespace Sys2Proof.Machine

/-- A series of writes leaves every cell that none of them names. -/
theorem Memory.read_foldl_write_other {α : Type} (f : α → Nat) (g : α → Int) (l : List α) (m : Memory) {b : Nat}
    (h : ∀ e ∈ l, f e ≠ b) : (l.foldl (fun m e => m.write (f e) (g e)) m).read b = m.read b := by
  induction l generalizing m with
  | nil => rfl
  | cons e l ih =>
    obtain ⟨he, hl⟩ := List.forall_mem_cons.1 h
    calc (l.foldl (fun m e => m.write (f e) (g e)) (m.write (f e) (g e))).read b
      _ = (m.write (f e) (g e)).read b := ih _ hl
      _ = m.read b := Memory.read_write_other m he.symm (g e)

/-- The check of R207 on the addresses. -/
theorem initAddresses_iff {c : Config} {init : InitData} :
    WellFormed.initAddresses c init = true ↔ ∀ e ∈ init, 0 ≤ e.1 ∧ e.1 < (c.capacity : Int) := by
  simp [WellFormed.initAddresses]

/-- A cell the initialisation data does not name keeps the zero of reset. That no address is negative matters: `initMemory`
takes a negative one to cell 0. -/
theorem initMemory_read_unnamed {init : InitData} (hpos : ∀ e ∈ init, 0 ≤ e.1) {a : Nat} (ha : ∀ e ∈ init, e.1 ≠ a) :
    (initMemory init).read a = 0 := by
  have hne : ∀ e ∈ init, e.1.toNat ≠ a := fun e he hea =>
    ha e he (by rw [← hea, Int.toNat_of_nonneg (hpos e he)])
  exact Memory.read_foldl_write_other _ _ init [] hne

/-- Every cell but those named reads 0 in the first state of a run (R31, R206). -/
theorem launch_read_unnamed {c : Config} {img : List Byte} {init : InitData} {s : State}
    (h : launch c img init = .next s) {a : Nat} (ha : ∀ e ∈ init, e.1 ≠ a) : s.mem.read a = 0 := by
  obtain ⟨rfl, -, -, haddr, -, -⟩ := launch_next h
  exact initMemory_read_unnamed (fun e he => (initAddresses_iff.1 haddr e he).1) ha

/-- The accumulator is 0 in the first state of a run (R22). -/
theorem launch_acc {c : Config} {img : List Byte} {init : InitData} {s : State} (h : launch c img init = .next s) :
    s.acc = 0 := by
  obtain ⟨rfl, -⟩ := launch_next h
  rfl

@[simp] theorem State.resetWith_acc (c : Config) : (State.resetWith c).acc = 0 := rfl

@[simp] theorem State.resetWith_read (c : Config) (a : Nat) : (State.resetWith c).mem.read a = 0 := Memory.read_nil a

/-- Settles O52: reset empties memory, and a launch writes only the cells its initialisation data names. -/
theorem accAndMemoryStartAtZero : Obligations.AccAndMemoryStartAtZero := by
  have hreset (c : Config) : (State.resetWith c).acc = 0 ∧ ∀ a, (State.resetWith c).mem.read a = 0 :=
    ⟨State.resetWith_acc c, State.resetWith_read c⟩
  exact ⟨hreset, hreset Config.standard, fun _ _ _ _ h => ⟨launch_acc h, fun _ => launch_read_unnamed h⟩⟩

end Sys2Proof.Machine
end

section
/-!
PROOFS about 30_encoding.md: the unpacker's fields, the dispatch table, and the assembler's path to an image.
-/
namespace Sys2Proof

/-! The unpacker and the dispatch table. -/

/-- Three bytes are never "end of program", and byte 2 does not come into the fields (R85, R114). -/
@[simp] theorem unpack_cons (byte0 byte1 byte2 : Byte) (rest : List Byte) :
    unpack (byte0 :: byte1 :: byte2 :: rest) = .fields (opcodeField byte0) (operandField byte0 byte1) := rfl

/-- Settles O3: the two fields as numbers. -/
theorem unpackerFields : Obligations.UnpackerFields :=
  fun byte0 byte1 byte2 rest =>
    ⟨_, _, unpack_cons byte0 byte1 byte2 rest, opcodeField_toNat byte0, operandField_toNat byte0 byte1⟩

/-- The values of byte 0 that carry one opcode: a run of 16 (R83). -/
theorem opcodeField_eq_iff (a : OpcodeField) (byte0 : Byte) :
    opcodeField byte0 = a ↔ a.toNat * 16 ≤ byte0.toNat ∧ byte0.toNat ≤ a.toNat * 16 + 15 := by
  rw [← BitVec.toNat_inj, opcodeField_toNat]
  omega

/-- The four opcodes of the Opcode Table (R86). -/
theorem Instr.opcode_cases (i : Instr) : i.opcode = 0 ∨ i.opcode = 2 ∨ i.opcode = 10 ∨ i.opcode = 14 := by
  cases i <;> simp [Instr.opcode]

/-- Dispatch answers "illegal" for exactly the other twelve opcodes, whatever the operand (R86, R88). -/
theorem dispatch_eq_none_iff (a : OpcodeField) (b : Operand) :
    dispatch a b = none ↔ a ≠ 0 ∧ a ≠ 2 ∧ a ≠ 10 ∧ a ≠ 14 := by
  rcases dispatch_cases a b with ⟨hnone, hother⟩ | ⟨i, hi, rfl, -⟩
  · exact iff_of_true hnone hother
  · have hlegal := i.opcode_cases
    refine iff_of_false (by simp [hi]) ?_
    tauto

namespace Machine

/-- The Opcode Table read from the four mnemonics (R86, R96). -/
theorem mnemonicCode_of_table :
    mnemonicCode "LOAD_CONST" = some 10 ∧ mnemonicCode "LOAD_MEM" = some 0 ∧ mnemonicCode "STORE_MEM" = some 14 ∧
      mnemonicCode "SQRT" = some 2 := by
  decide

/-- Settles O5: the four legal rows by the per-instruction law of dispatch, the other twelve by its case lemma. -/
theorem dispatchTableEntries : Obligations.DispatchTableEntries := fun b =>
  ⟨Laws.Dispatch.loadMem b, Laws.Dispatch.sqrt b, Laws.Dispatch.loadConst b, Laws.Dispatch.storeMem b,
    fun a h0 h2 h10 h14 => (dispatch_eq_none_iff a b).2 ⟨h0, h2, h10, h14⟩, opcodeField_eq_iff, mnemonicCode_of_table⟩

/-! The assembler. -/

/-- A mnemonic's code is one of the four in the table. -/
theorem mnemonicCode_legal {m : String} {code : OpcodeField} (h : mnemonicCode m = some code) :
    code = 10 ∨ code = 0 ∨ code = 14 ∨ code = 2 := by
  unfold mnemonicCode at h
  split_ifs at h <;> simp_all

/-- The code of a mnemonic dispatches, with any operand (R99). -/
theorem dispatch_mnemonicCode {m : String} {code : OpcodeField} (h : mnemonicCode m = some code) (b : Operand) :
    dispatch code b ≠ none := by
  have hlegal := mnemonicCode_legal h
  rw [Ne, dispatch_eq_none_iff]
  tauto

@[simp] theorem assemble_nil : assemble [] = .ok [] := rfl

/-- A program translates when its first mnemonic is known and the rest translates; the first instruction's bytes come
first (R95, R97). -/
theorem assemble_cons_ok_iff {i : SourceInstr} {rest : List SourceInstr} {img : List Byte} :
    assemble (i :: rest) = .ok img ↔
      ∃ code tail, mnemonicCode i.mnemonic = some code ∧ assemble rest = .ok tail ∧
        img = encodeFields code i.operand ++ tail := by
  unfold assemble
  rw [translateProgram]
  cases mnemonicCode i.mnemonic with
  | none => simp
  | some code =>
    cases translateProgram rest with
    | error e => simp
    | ok cs => simp [commandsImage, eq_comm]

@[simp] theorem encodeFields_length (a : OpcodeField) (operand : Int) : (encodeFields a operand).length = 3 := rfl

theorem assemble_length {prog : List SourceInstr} {img : List Byte} (h : assemble prog = .ok img) :
    img.length = 3 * prog.length := by
  induction prog generalizing img with
  | nil => cases h; rfl
  | cons i rest ih =>
    obtain ⟨code, tail, -, htail, rfl⟩ := assemble_cons_ok_iff.1 h
    rw [List.length_append, ih htail, encodeFields_length, List.length_cons]
    omega

/-- The three bytes at offset 3 k of an image are those of source instruction number k (R97). -/
theorem assemble_window {prog : List SourceInstr} {img : List Byte} (h : assemble prog = .ok img) {k : Nat}
    {i : SourceInstr} (hk : prog[k]? = some i) :
    ∃ code, mnemonicCode i.mnemonic = some code ∧ (img.drop (3 * k)).take 3 = encodeFields code i.operand := by
  induction prog generalizing img k with
  | nil => simp at hk
  | cons j rest ih =>
    obtain ⟨code, tail, hcode, htail, rfl⟩ := assemble_cons_ok_iff.1 h
    cases k with
    | zero =>
      obtain rfl : j = i := by simpa using hk
      exact ⟨code, hcode, List.take_left' (encodeFields_length code j.operand)⟩
    | succ k =>
      have hskip : (encodeFields code j.operand ++ tail).drop (3 * (k + 1)) = tail.drop (3 * k) := rfl
      rw [hskip]
      exact ih htail (by simpa using hk)

/-- Settles O9: the image's length and its windows, each by induction along the source. -/
theorem assemblyIsOneToOne : Obligations.AssemblyIsOneToOne := fun _ _ h =>
  ⟨assemble_length h, fun _ _ hk => assemble_window h hk⟩

/-- A program translates exactly when every mnemonic is in the table. -/
theorem exists_assemble_ok_iff (prog : List SourceInstr) :
    (∃ img, assemble prog = .ok img) ↔ ∀ i ∈ prog, mnemonicCode i.mnemonic ≠ none := by
  induction prog with
  | nil => simp
  | cons i rest ih =>
    rw [List.forall_mem_cons, ← ih, Option.ne_none_iff_exists']
    simp only [assemble_cons_ok_iff]
    constructor
    · rintro ⟨_, code, tail, hcode, htail, rfl⟩
      exact ⟨⟨code, hcode⟩, tail, htail⟩
    · rintro ⟨⟨code, hcode⟩, tail, htail⟩
      exact ⟨_, code, tail, hcode, htail, rfl⟩

/-- The translation has one failure, so it fails exactly when it gives no image (R99). -/
theorem exists_assemble_error_iff (prog : List SourceInstr) :
    (∃ m, assemble prog = .error (.unknownMnemonic m)) ↔ ¬∃ img, assemble prog = .ok img := by
  cases assemble prog with
  | ok img => simp
  | error e =>
    obtain ⟨m⟩ := e
    simp

/-- The decoder reads the fields of an encoded command, its opcode number as it was given, before those of what
follows. -/
theorem decodeAll_encodeFields_append (a : OpcodeField) (operand : Int) (tail : List Byte) :
    ∃ b, decodeAll (encodeFields a operand ++ tail) = (a, b) :: decodeAll tail := by
  obtain ⟨byte0, byte1, hbytes, rfl, -⟩ := encodeFields_fields a operand
  exact ⟨operandField byte0 byte1, by rw [hbytes]; rfl⟩

/-- Every instruction of an assembled image has a legal opcode (R99). -/
theorem assemble_dispatch {prog : List SourceInstr} {img : List Byte} (h : assemble prog = .ok img) :
    ∀ ab ∈ decodeAll img, dispatch ab.1 ab.2 ≠ none := by
  induction prog generalizing img with
  | nil =>
    obtain rfl : [] = img := by simpa using h
    simp [decodeAll]
  | cons i rest ih =>
    obtain ⟨code, tail, hcode, htail, rfl⟩ := assemble_cons_ok_iff.1 h
    obtain ⟨b, hdec⟩ := decodeAll_encodeFields_append code i.operand tail
    rw [hdec, List.forall_mem_cons]
    exact ⟨dispatch_mnemonicCode hcode b, ih htail⟩

/-- Settles O10: the translation fails exactly where it gives no image, and it gives one exactly when all mnemonics are
known. -/
theorem unknownMnemonicAborts : Obligations.UnknownMnemonicAborts := by
  refine fun prog => ⟨?_, fun img h => assemble_dispatch h⟩
  rw [exists_assemble_error_iff, exists_assemble_ok_iff]
  push Not
  rfl

end Machine

end Sys2Proof
end

section
/-!
PROOFS about 40_fetch_decode_dispatch.md: how a step and a run move `pc`.
-/
namespace Sys2Proof.Machine

/-- A running, launched machine has a next state: the engine halts it or an instruction completes (R119). -/
theorem exists_step_of_running {s : State} (hr : s.run = .running) (hi : s.img ≠ none) : ∃ t, step s = .next t := by
  obtain ⟨img, hi⟩ := Option.ne_none_iff_exists'.1 hi
  rw [step_running hr hi, engineStep]
  split
  · exact ⟨_, rfl⟩
  · split
    · exact ⟨_, rfl⟩
    · split
      · exact ⟨_, rfl⟩
      · obtain ⟨u, -, he⟩ := exec_effect ‹Instr› s
        exact ⟨_, he⟩

/-- A step either halts the machine where it stands or leaves it running one instruction further (R120, R121). -/
theorem step_pc_run {s t : State} (h : step s = .next t) :
    (t.run = .halted ∧ t.pc = s.pc) ∨ (t.run = .running ∧ t.pc = s.pc + 3) := by
  obtain ⟨img, hr, -, ⟨-, rfl⟩ | ⟨a, b, -, ⟨-, rfl⟩ | ⟨-, ⟨-, rfl⟩ | ⟨i, u, -, hu, rfl⟩⟩⟩⟩ := step_cases h
  case inr.inr.inr =>
    obtain ⟨-, hpc, -, hrun, -, -⟩ := hu.frame
    exact .inr ⟨hrun.trans hr, congrArg (· + 3) hpc⟩
  all_goals exact .inl ⟨rfl, rfl⟩

/-- No step changes the image (R64). -/
theorem step_img {s t : State} (h : step s = .next t) : t.img = s.img := by
  obtain ⟨img, -, -, ⟨-, rfl⟩ | ⟨a, b, -, ⟨-, rfl⟩ | ⟨-, ⟨-, rfl⟩ | ⟨i, u, -, hu, rfl⟩⟩⟩⟩ := step_cases h
  case inr.inr.inr =>
    obtain ⟨-, -, -, -, -, himg⟩ := hu.frame
    exact himg
  all_goals rfl

/-- The first step of a run. -/
theorem runFor_succ_of_step {s t : State} (h : step s = .next t) (n : Nat) : runFor (n + 1) s = runFor n t := by
  simp [runFor, h]

/-- A halted machine stays as it is (R178). -/
theorem runFor_halted {s : State} (h : s.run = .halted) (n : Nat) : runFor n s = s := by
  cases n with
  | zero => rfl
  | succ n => simp [runFor, step_halted h]

/-- A machine that still runs after a number of steps was running before them: halted is terminal (R178). -/
theorem run_of_runFor_running {n : Nat} {s : State} (h : (runFor n s).run = .running) : s.run = .running := by
  cases hr : s.run with
  | running => rfl
  | halted =>
    rw [runFor_halted hr, hr] at h
    exact h

/-- A machine still running after `n` steps has executed `n` instructions, 3 bytes each (R121). -/
theorem runFor_pc_of_running {n : Nat} {s : State} (h : (runFor n s).run = .running) (hi : s.img ≠ none) :
    (runFor n s).pc = s.pc + 3 * n := by
  induction n generalizing s with
  | zero => rfl
  | succ n ih =>
    obtain ⟨t, ht⟩ := exists_step_of_running (run_of_runFor_running h) hi
    rw [runFor_succ_of_step ht] at h ⊢
    have hrest : (runFor n t).pc = t.pc + 3 * n := ih h (step_img ht ▸ hi)
    rcases step_pc_run ht with ⟨hhalt, -⟩ | ⟨-, hpc⟩
    · cases hhalt.symm.trans (run_of_runFor_running h)
    · omega

/-- Settles O36: a halting step leaves `pc` and any other adds 3; for a run, by induction on the number of steps. -/
theorem pcOnlyAdvancesByThree : Obligations.PcOnlyAdvancesByThree := by
  refine ⟨fun s t h => ?_, fun n s h hi => (runFor_pc_of_running h hi).symm⟩
  rcases step_pc_run h with ⟨hhalt, hpc⟩ | ⟨-, hpc⟩
  · exact ⟨.inr hpc, fun hrun => by cases hhalt.symm.trans hrun⟩
  · exact ⟨.inl hpc, fun _ => hpc⟩

end Sys2Proof.Machine
end

section
/-!
PROOFS about 41_load_const.md: the decoding of a legal instruction's bytes, and LOAD_CONST's effect.
-/
namespace Sys2Proof

/-- The code and the operand of an instruction dispatch back to it (R86, R116). -/
theorem dispatch_opcode_operand : (i : Instr) → dispatch i.opcode i.operand = some i
  | .loadMem b => Laws.Dispatch.loadMem b
  | .sqrt b => Laws.Dispatch.sqrt b
  | .loadConst b => Laws.Dispatch.loadConst b
  | .storeMem b => Laws.Dispatch.storeMem b

/-- Bytes whose two fields are an instruction's decode to it, whatever byte 2 is (R85, R90). -/
theorem decode_of_fields {i : Instr} {byte0 byte1 : Byte} (ha : opcodeField byte0 = i.opcode)
    (hb : operandField byte0 byte1 = i.operand) (byte2 : Byte) (rest : List Byte) :
    decode (byte0 :: byte1 :: byte2 :: rest) = .ok (i, rest) := by
  simp [decode, ha, hb, dispatch_opcode_operand]

/-- The encoding of an instruction's opcode with any source operand that has the instruction's operand as its low 12 bits
decodes to the instruction (R95). -/
theorem decode_encodeFields {i : Instr} {operand : Int} (h : operand % 4096 = i.operand.toNat) :
    decode (encodeFields i.opcode operand) = .ok (i, []) := by
  obtain ⟨byte0, byte1, hbytes, ha, hb⟩ := encodeFields_fields i.opcode operand
  have hb' : operandField byte0 byte1 = i.operand := BitVec.eq_of_toNat_eq (by omega)
  rw [hbytes]
  exact decode_of_fields ha hb' 0 []

/-- A byte made of an opcode and the operand's high bits has that opcode (R83). -/
theorem opcodeField_append (a hi : BitVec 4) : opcodeField (a ++ hi) = a :=
  BitVec.extractLsb'_append_eq_left

/-- An operand cut into its high 4 and its low 8 bits is read back whole (R84). -/
theorem operandField_append (a : BitVec 4) (b : Operand) :
    operandField (a ++ b.extractLsb' 8 4) (b.extractLsb' 0 8) = b := by
  have hhigh : (a ++ b.extractLsb' 8 4).extractLsb' 0 4 = b.extractLsb' 8 4 := BitVec.extractLsb'_append_eq_right
  have hjoin : b.extractLsb' 8 4 ++ b.extractLsb' 0 8 = b.extractLsb' 0 12 :=
    BitVec.extractLsb'_append_extractLsb'_eq_extractLsb' rfl
  rw [operandField, hhigh, hjoin, BitVec.extractLsb'_eq_self]

namespace Machine

/-- Every operand fits the accumulator of a legal machine: a cell has 13 bits or more, and the operand 12 (R9, R130). -/
theorem zext_inRange {c : Config} (h : c.Wf) (b : Operand) : c.InRange (zext b) := by
  obtain ⟨-, hwidth, -⟩ := h
  have hpow : (2 : Int) ^ 12 ≤ 2 ^ (c.cellBits - 1) := pow_le_pow_right₀ (by norm_num) (by omega)
  have hb := b.isLt
  simp only [Config.InRange, Config.minCell, Config.maxCell, zext]
  omega

/-- LOAD_CONST sets the accumulator and completes, in every state (R130). -/
theorem exec_loadConst (b : Operand) (s : State) : exec (.loadConst b) s = .next (s.setAcc (zext b)).complete := rfl

/-- Settles O11: the two encodings by their fields, the effect by the equation of LOAD_CONST and the laws of its two state
updates. -/
theorem loadConstResult : Obligations.LoadConstResult := by
  intro b s
  refine ⟨fun byte2 => ?_, ?_, (s.setAcc (zext b)).complete, exec_loadConst b s, ?_⟩
  · exact decode_of_fields (i := .loadConst b) (opcodeField_append _ _) (operandField_append _ b) byte2 []
  · exact decode_encodeFields (i := .loadConst 904) (operand := 5000) rfl
  · have hrange (h : s.cfg.Wf) : s.cfg.InRange (s.setAcc (zext b)).complete.acc := zext_inRange h b
    exact ⟨rfl, hrange, fun _ => rfl, by simp⟩

end Machine

end Sys2Proof
end

section
/-!
PROOFS about 43_sqrt.md: the values R157 lists, from the defining inequality of R151.
-/
namespace Sys2Proof.Machine

/-- SQRT does not see the sign of its source (R152). -/
theorem magnitude_neg (v : Int) : magnitude (-v) = magnitude v := Int.natAbs_neg v

/-- The numbers with the square root k (R151). -/
theorem isqrt_mul_self_add {k j : Nat} (h : j ≤ 2 * k) : isqrt (k * k + j) = k := by
  have hsucc : (k + 1) * (k + 1) = k * k + 2 * k + 1 := by ring
  exact isqrt_eq_iff.2 ⟨by omega, by omega⟩

/-- The root of a square, taken as SQRT takes it from a cell. -/
theorem isqrt_magnitude_mul_self (k : Nat) : isqrt (magnitude (k * k)) = k := by
  rw [magnitude, Int.natAbs_mul, Int.natAbs_natCast]
  exact isqrt_mul_self_add (j := 0) (by omega)

/-- The roots of the first n squares are the first n numbers. -/
theorem map_isqrt_magnitude_squares (n : Nat) :
    ((List.range n).map fun k : Nat => (k * k : Int)).map (fun v => isqrt (magnitude v)) = List.range n := by
  simp [Function.comp_def, isqrt_magnitude_mul_self]

/-- Settles O21: the perfect squares by the root of a square, -36 by its magnitude, and 15, 1000 and 2 by their distance
from the square below. -/
theorem sqrtValuesOfSource : Obligations.SqrtValuesOfSource := by
  have h36 : isqrt (magnitude 36) = 6 := isqrt_magnitude_mul_self 6
  have hneg : isqrt (magnitude (-36)) = 6 := (congrArg isqrt (magnitude_neg 36)).trans h36
  have h15 : isqrt (3 * 3 + 6) = 3 := isqrt_mul_self_add (by decide)
  have h1000 : isqrt (31 * 31 + 39) = 31 := isqrt_mul_self_add (by decide)
  have h2 : isqrt (1 * 1 + 1) = 1 := isqrt_mul_self_add (by decide)
  exact ⟨h15, h1000, isqrt_magnitude_mul_self 5, h2, isqrt_magnitude_mul_self 0, hneg, h36,
    map_isqrt_magnitude_squares 10⟩

end Sys2Proof.Machine
end

section
/-!
PROOFS about 60_exceptions.md: what an address out of bounds does.
-/
namespace Sys2Proof.Machine

/-- When the bounds test of R58 fails. -/
theorem inBounds_eq_false_iff {c : Config} {a : Int} : inBounds c a = false ↔ ¬(0 ≤ a ∧ a < c.capacity) := by
  simp only [inBounds, decide_eq_false_iff_not]

/-- An operand taken as an address is never negative, so only the capacity bounds it (R51). -/
theorem inBounds_absoluteAddress_eq_false_iff {c : Config} {b : Operand} :
    inBounds c (absoluteAddress b) = false ↔ c.capacity ≤ b.toNat := by
  rw [inBounds_eq_false_iff, absoluteAddress]
  omega

/-- The arm of R171. -/
theorem exec_loadMem_outOfBounds {b : Operand} {s : State} (h : inBounds s.cfg (loadAddress b s) = false) :
    exec (.loadMem b) s = .next ((s.appendDiag .oobLoad).setAcc 0).complete := by
  obtain ⟨u, hu, hexec⟩ := exec_effect (.loadMem b) s
  cases hu with
  | load _ hin => simp [h] at hin
  | loadOut => exact hexec

/-- The arm of R172. -/
theorem exec_storeMem_outOfBounds {b : Operand} {s : State} (h : inBounds s.cfg (absoluteAddress b) = false) :
    exec (.storeMem b) s = .next (s.appendDiag .oobStore).complete := by
  obtain ⟨u, hu, hexec⟩ := exec_effect (.storeMem b) s
  cases hu with
  | store _ hin => simp [h] at hin
  | storeOut => exact hexec

/-- The arm of R173, with one event whichever address is out. -/
theorem exec_sqrt_outOfBounds {b : Operand} {s : State}
    (h : inBounds s.cfg (accAddress s) = false ∨ inBounds s.cfg (absoluteAddress b) = false) :
    exec (.sqrt b) s = .next (s.appendDiag .oobSqrt).complete := by
  obtain ⟨u, hu, hexec⟩ := exec_effect (.sqrt b) s
  cases hu with
  | root _ hsrc hdst => simp [hsrc, hdst] at h
  | rootOut => exact hexec

/-- Settles O16: each of the three instructions takes its out-of-bounds arm, which appends one event and completes. -/
theorem outOfBoundsNeverHalts : Obligations.OutOfBoundsNeverHalts := by
  intro i s hout
  cases i with
  | loadMem b =>
    have hload : inBounds s.cfg (loadAddress b s) = false := inBounds_eq_false_iff.2 hout
    exact ⟨_, ⟨.oobLoad, s.pc⟩, exec_loadMem_outOfBounds hload, by simp⟩
  | storeMem b =>
    have hdst : inBounds s.cfg (absoluteAddress b) = false := inBounds_absoluteAddress_eq_false_iff.2 hout
    exact ⟨_, ⟨.oobStore, s.pc⟩, exec_storeMem_outOfBounds hdst, by simp⟩
  | sqrt b =>
    have hsrcdst : inBounds s.cfg (accAddress s) = false ∨ inBounds s.cfg (absoluteAddress b) = false :=
      hout.imp inBounds_eq_false_iff.2 inBounds_absoluteAddress_eq_false_iff.2
    exact ⟨_, ⟨.oobSqrt, s.pc⟩, exec_sqrt_outOfBounds hsrcdst, by simp⟩
  | loadConst b => exact hout.elim

end Sys2Proof.Machine
end

section
/-!
PROOFS about 70_reset_and_hazards.md: what the initialisation data leaves in memory at launch.
-/
namespace Sys2Proof.Machine

/-- A series of writes to distinct cells leaves in each what was written to it: no later write names it. -/
theorem Memory.read_foldl_write_of_mem {α : Type} (f : α → Nat) (g : α → Int) {l : List α} (m : Memory)
    (hl : (l.map f).Nodup) {e : α} (he : e ∈ l) :
    (l.foldl (fun m e => m.write (f e) (g e)) m).read (f e) = g e := by
  induction l generalizing m with
  | nil => cases he
  | cons d l ih =>
    obtain ⟨hd, hl⟩ := List.nodup_cons.1 hl
    cases he with
    | head =>
      have hother : ∀ x ∈ l, f x ≠ f e := fun x hx hxe => hd (hxe ▸ List.mem_map_of_mem hx)
      calc (l.foldl (fun m e => m.write (f e) (g e)) (m.write (f e) (g e))).read (f e)
        _ = (m.write (f e) (g e)).read (f e) := Memory.read_foldl_write_other f g l _ hother
        _ = g e := Memory.read_write_same m (f e) (g e)
    | tail _ he => exact ih _ hl he

/-- The check of R206 on the addresses: a mapping has each key once. -/
theorem initKeys_iff {init : InitData} : WellFormed.initKeys init = true ↔ (init.map Prod.fst).Nodup := by
  induction init with
  | nil => simp [WellFormed.initKeys]
  | cons e init ih =>
    have hfresh : (∀ f ∈ init, f.1 ≠ e.1) ↔ e.1 ∉ init.map Prod.fst := by
      rw [← List.forall_mem_ne', List.forall_mem_map]
    simp only [WellFormed.initKeys, Bool.and_eq_true, List.all_eq_true, decide_eq_true_eq, ih, hfresh, List.map_cons,
      List.nodup_cons]

/-- Distinct addresses name distinct cells. That no address is negative matters: `initMemory` takes every negative one to
cell 0. -/
theorem nodup_initCells {init : InitData} (hpos : ∀ e ∈ init, 0 ≤ e.1) (hkeys : (init.map Prod.fst).Nodup) :
    (init.map fun e => e.1.toNat).Nodup := by
  have hinj : ∀ a ∈ init.map Prod.fst, ∀ b ∈ init.map Prod.fst, a.toNat = b.toNat → a = b := by
    have hnonneg : ∀ a ∈ init.map Prod.fst, 0 ≤ a := List.forall_mem_map.2 hpos
    intro a ha b hb hab
    have := hnonneg a ha
    have := hnonneg b hb
    omega
  simpa [Function.comp_def] using hkeys.map_on hinj

/-- Every cell named holds the value of its entry in the first state of a run (R206). -/
theorem launch_read_named {c : Config} {img : List Byte} {init : InitData} {s : State}
    (h : launch c img init = .next s) {a v : Int} (hav : (a, v) ∈ init) : s.mem.read a.toNat = v := by
  obtain ⟨rfl, -, -, haddr, -, hkeys⟩ := launch_next h
  have hcells : (init.map fun e => e.1.toNat).Nodup :=
    nodup_initCells (fun e he => (initAddresses_iff.1 haddr e he).1) (initKeys_iff.1 hkeys)
  exact Memory.read_foldl_write_of_mem _ _ [] hcells hav

/-- Settles O54: a launch checks that the initialisation data names each cell once, so no entry overwrites another. -/
theorem initialisationSetsCells : Obligations.InitialisationSetsCells :=
  fun _ _ _ _ h => ⟨fun _ _ => launch_read_named h, fun _ => launch_read_unnamed h⟩

end Sys2Proof.Machine
end

section
/-!
PROOFS about 30_encoding.md and 40_fetch_decode_dispatch.md section 2: decoding and encoding undo each other, and the
decoder answers at every offset.
-/
namespace Sys2Proof

/-- The operand of an instruction survives the encoder's truncation: it has 12 bits (R92, R95). -/
theorem operand_emod (b : Operand) : (b.toNat : Int) % 4096 = b.toNat := by
  have := b.isLt
  omega

/-- The encoder's bytes carry the instruction's two fields, and byte 2 is 0 (R95). -/
theorem encode_fields (i : Instr) :
    ∃ byte0 byte1, encode i = [byte0, byte1, 0] ∧ opcodeField byte0 = i.opcode ∧
      operandField byte0 byte1 = i.operand := by
  obtain ⟨byte0, byte1, hbytes, ha, hb⟩ := encodeFields_fields i.opcode i.operand.toNat
  rw [operand_emod] at hb
  exact ⟨byte0, byte1, hbytes, ha, BitVec.eq_of_toNat_eq (by omega)⟩

/-- Bytes 0 and 1 hold nothing but the two fields (R83, R84). -/
theorem bytes_eq_of_fields_eq {byte0 byte1 byte0' byte1' : Byte} (ha : opcodeField byte0 = opcodeField byte0')
    (hb : operandField byte0 byte1 = operandField byte0' byte1') : byte0 = byte0' ∧ byte1 = byte1' := by
  have ha := congrArg BitVec.toNat ha
  have hb := congrArg BitVec.toNat hb
  rw [opcodeField_toNat, opcodeField_toNat] at ha
  rw [operandField_toNat, operandField_toNat] at hb
  have := byte1.isLt
  have := byte1'.isLt
  exact ⟨BitVec.eq_of_toNat_eq (by omega), BitVec.eq_of_toNat_eq (by omega)⟩

/-- Three bytes are the instruction with their fields, or an illegal opcode by name (R90). -/
theorem decode_cons_cases (byte0 byte1 byte2 : Byte) (rest : List Byte) :
    (∃ i : Instr, decode (byte0 :: byte1 :: byte2 :: rest) = .ok (i, rest) ∧ i.opcode = opcodeField byte0 ∧
        i.operand = operandField byte0 byte1) ∨
      decode (byte0 :: byte1 :: byte2 :: rest) = .error (.illegalOpcode (opcodeField byte0)) ∧
        dispatch (opcodeField byte0) (operandField byte0 byte1) = none := by
  rcases dispatch_cases (opcodeField byte0) (operandField byte0 byte1) with ⟨hnone, -⟩ | ⟨i, hi, ha, hb⟩
  · exact .inr ⟨by simp [decode, hnone], hnone⟩
  · exact .inl ⟨i, decode_of_fields ha.symm hb.symm byte2 rest, ha, hb⟩

/-- Dispatch answers only the instruction with the opcode and operand it was given (R116). -/
theorem dispatch_some {a : OpcodeField} {b : Operand} {i : Instr} (h : dispatch a b = some i) :
    a = i.opcode ∧ b = i.operand := by
  rcases dispatch_cases a b with ⟨hnone, -⟩ | ⟨j, hj, rfl, rfl⟩
  · simp [hnone] at h
  · obtain rfl : j = i := by simpa [hj] using h
    exact ⟨rfl, rfl⟩

/-- What bytes decode to has the fields the unpacker finds in them (R90, R115). -/
theorem unpack_of_decode {bytes rest : List Byte} {i : Instr} (h : decode bytes = .ok (i, rest)) :
    unpack bytes = .fields i.opcode i.operand := by
  unfold decode at h
  cases hw : unpack bytes with
  | endOfProgram => simp [hw] at h
  | fields a b =>
    cases hd : dispatch a b with
    | none => simp [hw, hd] at h
    | some j =>
      obtain ⟨rfl, -⟩ : j = i ∧ _ := by simpa [hw, hd] using h
      obtain ⟨rfl, rfl⟩ := dispatch_some hd
      rfl

/-- Fewer than three bytes are the end of the program (R111). -/
theorem unpack_of_length_lt {bytes : List Byte} (h : bytes.length < 3) : unpack bytes = .endOfProgram :=
  (Machine.decodeAt_endOfProgram_iff bytes 0).2 (by omega)

/-- The decoder on three bytes that lie at an offset (R115). -/
theorem decodeAt_of_bytes {img : List Byte} {off : Nat} {byte0 byte1 byte2 : Byte} (h0 : img[off]? = some byte0)
    (h1 : img[off + 1]? = some byte1) (h2 : img[off + 2]? = some byte2) :
    decodeAt img off = .fields (opcodeField byte0) (operandField byte0 byte1) := by
  obtain ⟨hlt0, rfl⟩ := List.getElem?_eq_some_iff.1 h0
  obtain ⟨hlt1, rfl⟩ := List.getElem?_eq_some_iff.1 h1
  obtain ⟨hlt2, rfl⟩ := List.getElem?_eq_some_iff.1 h2
  rw [decodeAt, List.drop_eq_getElem_cons hlt0, List.drop_eq_getElem_cons hlt1, List.drop_eq_getElem_cons hlt2,
    unpack_cons]

namespace Machine

/-- Settles O1: the encoder's bytes have the instruction's fields, and the fields decode to the instruction. -/
theorem decodeOfEncodeIsIdentity : Obligations.DecodeOfEncodeIsIdentity := by
  intro i rest
  obtain ⟨byte0, byte1, hbytes, ha, hb⟩ := encode_fields i
  rw [hbytes]
  exact decode_of_fields ha hb 0 rest

/-- Settles O2: bytes 0 and 1 are pinned by the fields, and the encoder's byte 2 is 0. -/
theorem encodeOfDecodeNeedsZeroByte2 : Obligations.EncodeOfDecodeNeedsZeroByte2 := by
  intro byte0 byte1 byte2 i h
  obtain ⟨enc0, enc1, hbytes, ha, hb⟩ := encode_fields i
  have hfields := unpack_of_decode h
  rw [unpack_cons, ← ha, ← hb, Window.fields.injEq] at hfields
  obtain ⟨rfl, rfl⟩ := bytes_eq_of_fields_eq hfields.1 hfields.2
  rw [hbytes, eq_comm]
  simp

/-- Settles O4: the decoder answers "end of program" on fewer than 3 bytes, and else the fields of the bytes there. -/
theorem decoderInterface : Obligations.DecoderInterface := fun img off =>
  ⟨(decodeAt_endOfProgram_iff img off).2, fun _ _ _ => decodeAt_of_bytes⟩

/-- Settles O6: three bytes by the two cases of dispatch, fewer by the unpacker. -/
theorem decoderIsTotal : Obligations.DecoderIsTotal := by
  refine ⟨fun byte0 byte1 byte2 rest => ?_, fun bytes h => by simp [decode, unpack_of_length_lt h]⟩
  rcases decode_cons_cases byte0 byte1 byte2 rest with ⟨i, hdec, ha, hb⟩ | ⟨hdec, hnone⟩
  · refine .inl ⟨i, hdec, i.opcode_cases, ?_, ?_⟩
    · rw [ha, opcodeField_toNat]
    · rw [hb, operandField_toNat]
  · exact .inr ⟨_, hdec, opcodeField_toNat byte0, (dispatch_eq_none_iff _ _).1 hnone⟩

/-- Settles O7: eight words, each decoded by evaluation. -/
theorem workedEncodingsDecode : Obligations.WorkedEncodingsDecode := by
  unfold Obligations.WorkedEncodingsDecode
  decide

/-- Settles O8: the fields of encoded bytes, through the unpacker. -/
theorem encoderTruncatesOperand : Obligations.EncoderTruncatesOperand := by
  intro a operand
  obtain ⟨byte0, byte1, hbytes, rfl, hb⟩ := encodeFields_fields a operand
  exact ⟨byte0, byte1, operandField byte0 byte1, hbytes, unpack_cons byte0 byte1 0 [], hb⟩

end Machine

end Sys2Proof
end

section
/-!
PROOFS about 43_sqrt.md section 2: the square root as Mathlib's, its bounds, and its fixed points.
-/
namespace Sys2Proof.Machine

/-- The model's square root is the library's, which has the same defining inequality (R151). -/
theorem isqrt_eq_sqrt (n : Nat) : isqrt n = Nat.sqrt n :=
  isqrt_eq_iff.2 ⟨Nat.sqrt_le n, Nat.lt_succ_sqrt n⟩

/-- The root is monotone (R154). -/
theorem isqrt_mono {m n : Nat} (h : m ≤ n) : isqrt m ≤ isqrt n := by
  simpa only [isqrt_eq_sqrt] using Nat.sqrt_le_sqrt h

theorem isqrt_le_self (n : Nat) : isqrt n ≤ n := by
  simpa only [isqrt_eq_sqrt] using Nat.sqrt_le_self n

/-- Above 1 the root is a smaller number. -/
theorem isqrt_lt_self {n : Nat} (h : 1 < n) : isqrt n < n := by
  simpa only [isqrt_eq_sqrt] using Nat.sqrt_lt_self h

@[simp] theorem isqrt_zero : isqrt 0 = 0 := isqrt_mul_self_add (k := 0) (j := 0) (by decide)

@[simp] theorem isqrt_one : isqrt 1 = 1 := isqrt_mul_self_add (k := 1) (j := 0) (by decide)

/-- The numbers that are their own root. -/
theorem isqrt_eq_self_iff {n : Nat} : isqrt n = n ↔ n = 0 ∨ n = 1 := by
  constructor
  · intro h
    by_contra hn
    have := isqrt_lt_self (n := n) (by omega)
    omega
  · rintro (rfl | rfl)
    · exact isqrt_zero
    · exact isqrt_one

/-- Repeated roots come down to 1: each is smaller, and none is 0 (R154). -/
theorem exists_iterate_isqrt_eq_one (n : Nat) (hn : n ≠ 0) : ∃ k, isqrt^[k] n = 1 := by
  induction n using Nat.strong_induction_on with
  | _ n ih =>
    by_cases h1 : n = 1
    · exact ⟨0, h1⟩
    · have hpos : isqrt 1 ≤ isqrt n := isqrt_mono (by omega)
      rw [isqrt_one] at hpos
      obtain ⟨k, hk⟩ := ih (isqrt n) (isqrt_lt_self (by omega)) (by omega)
      exact ⟨k + 1, hk⟩

/-- Settles O22: monotone by the library's root, then the plateaus, the descent to 1 and the two fixed points. -/
theorem sqrtMonotoneAndFixedPoints : Obligations.SqrtMonotoneAndFixedPoints := by
  refine ⟨fun _ _ => isqrt_mono, fun _ _ => isqrt_mul_self_add, fun n hn => ?_, Function.iterate_fixed isqrt_zero⟩
  obtain ⟨k, hk⟩ := exists_iterate_isqrt_eq_one n hn
  refine ⟨k, fun l hl => ?_⟩
  obtain ⟨d, rfl⟩ := Nat.exists_eq_add_of_le' hl
  rw [Function.iterate_add_apply, hk]
  exact Function.iterate_fixed isqrt_one d

/-! The magnitude of a cell's value and its root. -/

/-- The magnitude is `v` or `-v`, whichever is not negative (R152). -/
theorem magnitude_eq_ite (v : Int) : (magnitude v : Int) = if 0 ≤ v then v else -v := by
  unfold magnitude
  split <;> omega

/-- The magnitude of a W-bit value is at most that of the most negative one (R152). -/
theorem magnitude_le_of_inRange {c : Config} {v : Int} (h : c.InRange v) : magnitude v ≤ 2 ^ (c.cellBits - 1) := by
  obtain ⟨hmin, hmax⟩ := h
  have hcast : ((2 ^ (c.cellBits - 1) : Nat) : Int) = 2 ^ (c.cellBits - 1) := by norm_cast
  unfold Config.minCell at hmin
  unfold Config.maxCell at hmax
  unfold magnitude
  omega

/-- With 2 bits or more the magnitude of the most negative value exceeds 1, so its root is below it (R153). -/
theorem isqrt_two_pow_lt {c : Config} (h : 2 ≤ c.cellBits) :
    isqrt (2 ^ (c.cellBits - 1)) < 2 ^ (c.cellBits - 1) :=
  isqrt_lt_self (Nat.one_lt_two_pow (by omega))

/-- The root of a cell's magnitude is at most that of the most negative value (R153). -/
theorem isqrt_magnitude_le {c : Config} {v : Int} (h : c.InRange v) :
    isqrt (magnitude v) ≤ isqrt (2 ^ (c.cellBits - 1)) :=
  isqrt_mono (magnitude_le_of_inRange h)

/-- The result of SQRT fits the cell it is stored in (R153). -/
theorem isqrt_magnitude_inRange {c : Config} {v : Int} (hw : 2 ≤ c.cellBits) (h : c.InRange v) :
    c.InRange (isqrt (magnitude v) : Nat) := by
  have hle : isqrt (magnitude v) < 2 ^ (c.cellBits - 1) := (isqrt_magnitude_le h).trans_lt (isqrt_two_pow_lt hw)
  have hcast : ((2 ^ (c.cellBits - 1) : Nat) : Int) = 2 ^ (c.cellBits - 1) := by norm_cast
  simp only [Config.InRange, Config.minCell, Config.maxCell]
  omega

/-- Settles O23: the root's bounds and its fixed points, taken at the magnitude. -/
theorem sqrtResultFitsCell : Obligations.SqrtResultFitsCell := fun _ _ hw h =>
  ⟨isqrt_magnitude_le h, isqrt_two_pow_lt hw, isqrt_magnitude_inRange hw h, isqrt_le_self _, isqrt_eq_self_iff⟩

end Sys2Proof.Machine
end

section
/-!
PROOFS about 42_load_mem_store_mem.md and 43_sqrt.md section 1: the arms of the instructions, in bounds and out.
-/
namespace Sys2Proof.Machine

/-! The in-bounds arms; those out of bounds stand with the proofs about 60_exceptions.md. -/

/-- When the bounds test of R58 passes. -/
theorem inBounds_eq_true_iff {c : Config} {a : Int} : inBounds c a = true ↔ 0 ≤ a ∧ a < c.capacity :=
  decide_eq_true_iff

theorem inBounds_absoluteAddress_eq_true_iff {c : Config} {b : Operand} :
    inBounds c (absoluteAddress b) = true ↔ b.toNat < c.capacity := by
  rw [inBounds_eq_true_iff, absoluteAddress]
  omega

/-- The other arm of R135. -/
theorem exec_loadMem_inBounds {b : Operand} {s : State} (h : inBounds s.cfg (loadAddress b s) = true) :
    exec (.loadMem b) s = .next (s.setAcc (s.mem.read (loadAddress b s).toNat)).complete := by
  obtain ⟨u, hu, hexec⟩ := exec_effect (.loadMem b) s
  cases hu with
  | load => exact hexec
  | loadOut _ hout => simp [h] at hout

/-- The other arm of R140. -/
theorem exec_storeMem_inBounds {b : Operand} {s : State} (h : b.toNat < s.cfg.capacity) :
    exec (.storeMem b) s = .next (s.memWrite b.toNat s.acc).complete := by
  have h := inBounds_absoluteAddress_eq_true_iff.2 h
  obtain ⟨u, hu, hexec⟩ := exec_effect (.storeMem b) s
  cases hu with
  | store => exact hexec
  | storeOut _ hout => simp [h] at hout

/-- The other arm of R150. -/
theorem exec_sqrt_inBounds {b : Operand} {s : State} (hsrc : inBounds s.cfg (accAddress s) = true)
    (hdst : b.toNat < s.cfg.capacity) :
    exec (.sqrt b) s = .next (s.memWrite b.toNat (isqrt (magnitude (s.mem.read s.acc.toNat)) : Nat)).complete := by
  have hdst := inBounds_absoluteAddress_eq_true_iff.2 hdst
  obtain ⟨u, hu, hexec⟩ := exec_effect (.sqrt b) s
  cases hu with
  | root => exact hexec
  | rootOut _ hout => simp [hsrc, hdst] at hout

/-! What every instruction does to the log. -/

/-- An instruction appends nothing, or one event with its own address, and only of a kind that a run goes on after
(R170). -/
theorem Effect.diag {s u : State} {i : Instr} (h : Effect s i u) :
    u.diag = s.diag ∨
      ∃ k : DiagKind, u.diag = s.diag ++ [⟨k, s.pc⟩] ∧ k.nonFatal = true ∧ k ≠ .truncatedImage := by
  cases h with
  | const | load | store | root => exact .inl rfl
  | loadOut => exact .inr ⟨.oobLoad, rfl, rfl, by decide⟩
  | storeOut => exact .inr ⟨.oobStore, rfl, rfl, by decide⟩
  | rootOut => exact .inr ⟨.oobSqrt, rfl, rfl, by decide⟩

/-- Settles O15: every instruction is an effect, which keeps its frame, and the common end of R120. -/
theorem everyInstructionAdvances : Obligations.EveryInstructionAdvances := by
  intro i s
  obtain ⟨u, hu, hexec⟩ := exec_effect i s
  obtain ⟨hcfg, hpc, hcount, hrun, hcause, himg⟩ := hu.frame
  refine ⟨u.complete, hexec, ?_⟩
  simp only [State.complete_pc, State.complete_icount, State.complete_run, State.complete_haltCause, State.complete_img,
    State.complete_cfg, State.complete_diag, hcfg, hpc, hcount, hrun, hcause, himg, true_and]
  exact hu.diag.imp_right fun ⟨k, hk, _⟩ => ⟨k, hk⟩

/-! The instructions' results. -/

/-- Settles O12: one arm for each outcome of the bounds test. -/
theorem loadMemResult : Obligations.LoadMemResult := by
  intro b s
  by_cases h : 0 ≤ s.acc + b.toNat ∧ s.acc + b.toNat < s.cfg.capacity
  · refine ⟨_, exec_loadMem_inBounds (inBounds_eq_true_iff.2 h), ?_⟩
    simp [h, loadAddress]
  · refine ⟨_, exec_loadMem_outOfBounds (inBounds_eq_false_iff.2 h), ?_⟩
    simp [h]

/-- Settles O13: one arm for each side of the capacity; the cells by the laws of a write. -/
theorem storeMemResult : Obligations.StoreMemResult := by
  intro b s
  by_cases h : b.toNat < s.cfg.capacity
  · refine ⟨_, exec_storeMem_inBounds h, ?_⟩
    rw [if_pos h]
    exact ⟨⟨Memory.read_write_same _ _ _, fun a ha => Memory.read_write_other _ ha _, rfl⟩, by simp⟩
  · refine ⟨_, exec_storeMem_outOfBounds (inBounds_absoluteAddress_eq_false_iff.2 (not_lt.1 h)), ?_⟩
    simp [h]

/-- Settles O14: one arm for each outcome of the two bounds tests; the root by its defining inequality. -/
theorem sqrtResult : Obligations.SqrtResult := by
  intro b s
  by_cases h : 0 ≤ s.acc ∧ s.acc < s.cfg.capacity ∧ b.toNat < s.cfg.capacity
  · obtain ⟨hlow, hhigh, hdst⟩ := h
    refine ⟨_, exec_sqrt_inBounds (inBounds_eq_true_iff.2 ⟨hlow, hhigh⟩) hdst, ?_⟩
    rw [if_pos ⟨hlow, hhigh, hdst⟩]
    have hroot := isqrt_isFloorSqrt (magnitude (s.mem.read s.acc.toNat))
    exact ⟨⟨⟨_, hroot, Memory.read_write_same _ _ _⟩, fun a ha => Memory.read_write_other _ ha _, rfl⟩, by simp⟩
  · have hout : inBounds s.cfg (accAddress s) = false ∨ inBounds s.cfg (absoluteAddress b) = false := by
      rw [inBounds_eq_false_iff, inBounds_absoluteAddress_eq_false_iff, accAddress]
      omega
    refine ⟨_, exec_sqrt_outOfBounds hout, ?_⟩
    simp [h]

/-- Settles O17: LOAD_MEM's arm of R171. -/
theorem oobLoadEvent : Obligations.OobLoadEvent :=
  ⟨rfl, fun _ _ h => ⟨_, exec_loadMem_outOfBounds (inBounds_eq_false_iff.2 h), rfl, rfl⟩⟩

/-- Settles O18: STORE_MEM's arm of R172. -/
theorem oobStoreEvent : Obligations.OobStoreEvent :=
  ⟨rfl, fun _ _ h =>
    ⟨_, exec_storeMem_outOfBounds (inBounds_absoluteAddress_eq_false_iff.2 h), rfl, rfl, rfl⟩⟩

/-- What SQRT stores when its source cell has just been written: the root of the magnitude written there (R150, R152). -/
theorem exec_sqrt_memWrite_source {b : Operand} {s : State} (hlow : 0 ≤ s.acc) (hhigh : s.acc < s.cfg.capacity)
    (hdst : b.toNat < s.cfg.capacity) (v : Int) :
    ∃ t, exec (.sqrt b) (s.memWrite s.acc.toNat v) = .next t ∧ t.mem.read b.toNat = (isqrt (magnitude v) : Nat) := by
  refine ⟨_, exec_sqrt_inBounds (s := s.memWrite s.acc.toNat v) (inBounds_eq_true_iff.2 ⟨hlow, hhigh⟩) hdst, ?_⟩
  simp

/-- Settles O20: the magnitude's value and bound; and SQRT's result, which depends on its source by the magnitude only. -/
theorem sqrtTakesMagnitude : Obligations.SqrtTakesMagnitude := by
  refine ⟨fun c v => ⟨magnitude_eq_ite v, magnitude_le_of_inRange⟩, fun b s v hlow hhigh hdst => ?_⟩
  obtain ⟨t, ht, hread⟩ := exec_sqrt_memWrite_source hlow hhigh hdst v
  obtain ⟨u, hu, hread'⟩ := exec_sqrt_memWrite_source hlow hhigh hdst (magnitude v : Int)
  have hmag : magnitude (magnitude v : Int) = magnitude v := Int.natAbs_natCast _
  exact ⟨t, u, ht, hu, by rw [hread, hread', hmag]⟩

end Sys2Proof.Machine
end

section
/-!
PROOFS about 40_fetch_decode_dispatch.md section 1 and 60_exceptions.md section 2: the step by its cases, the three halts,
and what one step writes.
-/
namespace Sys2Proof.Machine

/-! The step of a running, launched machine, one equation for each way through R110. -/

section
variable {s : State} {img : List Byte} {a : OpcodeField} {b : Operand}

/-- R110 line 1. -/
theorem step_endOfProgram (hr : s.run = .running) (hi : s.img = some img) (hw : decodeAt img s.pc = .endOfProgram) :
    step s = .next (s.raiseHalt .endOfImage) := by
  rw [step_running hr hi, engineStep, hw]
  rfl

/-- R110 line 2. -/
theorem step_watchdog (hr : s.run = .running) (hi : s.img = some img) (hw : decodeAt img s.pc = .fields a b)
    (hl : s.cfg.watchdogLimit ≤ s.icount) : step s = .next ((s.appendDiag .watchdog).raiseHalt .watchdog) := by
  rw [step_running hr hi, engineStep, hw]
  simp [hl]

/-- R110 line 5, for an opcode outside the table. -/
theorem step_illegalOpcode (hr : s.run = .running) (hi : s.img = some img) (hw : decodeAt img s.pc = .fields a b)
    (hl : s.icount < s.cfg.watchdogLimit) (hd : dispatch a b = none) :
    step s = .next ((s.appendDiag .illegalOpcode).raiseHalt .illegalOpcode) := by
  rw [step_running hr hi, engineStep, hw]
  simp [not_le.2 hl, hd]

/-- R110 line 5, for an opcode of the table. -/
theorem step_exec {i : Instr} (hr : s.run = .running) (hi : s.img = some img) (hw : decodeAt img s.pc = .fields a b)
    (hl : s.icount < s.cfg.watchdogLimit) (hd : dispatch a b = some i) : step s = exec i s := by
  rw [step_running hr hi, engineStep, hw]
  simp [not_le.2 hl, hd]

end

/-- The decoder answers two fields wherever 3 bytes lie (R115). -/
theorem exists_decodeAt_fields {img : List Byte} {off : Nat} (h : off + 3 ≤ img.length) :
    ∃ a b, decodeAt img off = .fields a b := by
  cases hw : decodeAt img off with
  | endOfProgram =>
    rw [decodeAt_endOfProgram_iff] at hw
    omega
  | fields a b => exact ⟨a, b, rfl⟩

/-- Settles O28: bytes that decode to an instruction have fields that dispatch to it. -/
theorem stepRunsDecodedInstruction : Obligations.StepRunsDecodedInstruction := fun _ _ i _ hr hi hl hdec =>
  step_exec hr hi (unpack_of_decode hdec) hl (dispatch_opcode_operand i)

/-- Settles O30: fewer than 3 bytes are "end of program", whatever the counter; the second clause is arithmetic. -/
theorem endOfImageHalts : Obligations.EndOfImageHalts := by
  refine fun s img hr hi => ⟨fun hshort => ?_, fun _ _ => by omega⟩
  exact ⟨_, step_endOfProgram hr hi ((decodeAt_endOfProgram_iff img s.pc).2 hshort), rfl, rfl, rfl⟩

/-- Settles O32: with 3 bytes there the decoder answers fields, and the ceiling is tested before they are dispatched. -/
theorem watchdogHalts : Obligations.WatchdogHalts := by
  intro s img hr hi hlen hl
  obtain ⟨a, b, hw⟩ := exists_decodeAt_fields hlen
  exact step_watchdog hr hi hw hl

/-- Settles O33: the opcode field of byte 0 is none of the table's four. -/
theorem illegalOpcodeHalts : Obligations.IllegalOpcodeHalts := by
  intro s img byte0 byte1 byte2 rest hr hi hl hdrop h0 h2 h10 h14
  have hw : decodeAt img s.pc = .fields (opcodeField byte0) (operandField byte0 byte1) := by
    rw [decodeAt, hdrop, unpack_cons]
  have hne (a : OpcodeField) (ha : byte0.toNat / 16 ≠ a.toNat) : opcodeField byte0 ≠ a :=
    fun h => ha (by rw [← opcodeField_toNat, h])
  have hd : dispatch (opcodeField byte0) (operandField byte0 byte1) = none :=
    (dispatch_eq_none_iff _ _).2 ⟨hne 0 h0, hne 2 h2, hne 10 h10, hne 14 h14⟩
  exact step_illegalOpcode hr hi hw hl hd

/-- Settles O34: no step of a halted machine, so a run stays; and reset leaves no image. -/
theorem noStepWhenHaltedOrUnlaunched : Obligations.NoStepWhenHaltedOrUnlaunched :=
  ⟨fun _ h => ⟨step_halted h, runFor_halted h⟩, fun _ => step_notLaunched rfl rfl⟩

/-- Settles O35: a running, launched machine steps, and every other state is a fault. -/
theorem runningMachineAlwaysSteps : Obligations.RunningMachineAlwaysSteps := by
  refine ⟨fun s img hr hi => exists_step_of_running hr (by simp [hi]), fun s r h => ?_⟩
  cases hr : s.run with
  | halted => simp [step_halted hr] at h
  | running =>
    cases hi : s.img with
    | none => simp [step_notLaunched hr hi] at h
    | some img =>
      obtain ⟨t, ht⟩ := exists_step_of_running hr (by simp [hi])
      simp [ht] at h

/-- Settles O31: of the cases of a step, the three halts end halted, and an instruction leaves the machine running. -/
theorem haltingStepChangesNothingElse : Obligations.HaltingStepChangesNothingElse := by
  intro s t h hhalt
  obtain ⟨img, hr, hi, ⟨-, rfl⟩ | ⟨a, b, -, ⟨-, rfl⟩ | ⟨-, ⟨-, rfl⟩ | ⟨i, u, -, hu, rfl⟩⟩⟩⟩ := step_cases h
  case inr.inr.inr =>
    obtain ⟨-, -, -, hrun, -, -⟩ := hu.frame
    cases hhalt.symm.trans (hrun.trans hr)
  all_goals exact ⟨hr, by simp [hi], by simp, rfl, by simp⟩

/-! The placing of a word. -/

/-- A word of the opcode table that decodes has an instruction's fields, whatever bytes follow it. -/
theorem unpack_wordBytes {w : Nat} {i : Instr} (h : decodeTableWord 24 w = some i) (tail : List Byte) :
    unpack (wordBytes 24 w ++ tail) = .fields i.opcode i.operand := by
  unfold decodeTableWord at h
  cases hdec : decode (wordBytes 24 w) with
  | error e => simp [hdec] at h
  | ok r =>
    obtain ⟨j, rest⟩ := r
    obtain rfl : j = i := by simpa [hdec] using h
    have hbytes : unpack (wordBytes 24 w ++ tail) = unpack (wordBytes 24 w) := rfl
    rw [hbytes, unpack_of_decode hdec]

/-- Settles O29: the placed word lies at `pc`, the machine runs, and its counter is below the ceiling, which is at least
1. -/
theorem fetchWordRunsNext : Obligations.FetchWordRunsNext := by
  rintro s w i ⟨-, -, hlimit⟩ hdec
  have hw : decodeAt (placeBytes s.imgBytes s.pc (wordBytes 24 w)) s.pc = .fields i.opcode i.operand := by
    rw [decodeAt, placeBytes_drop]
    exact unpack_wordBytes hdec _
  have hcount : (s.withFetchWord 24 w).icount < s.cfg.watchdogLimit := by
    simp only [State.withFetchWord, State.placeWord]
    split <;> omega
  exact step_exec rfl rfl hw hcount (dispatch_opcode_operand i)

/-! What one step writes. -/

/-- Only the two loads write the accumulator (R21). -/
theorem Effect.acc {s u : State} {i : Instr} (h : Effect s i u) :
    u.acc = s.acc ∨ ∃ b, i = .loadConst b ∨ i = .loadMem b := by
  cases h with
  | const b => exact .inr ⟨b, .inl rfl⟩
  | load b | loadOut b => exact .inr ⟨b, .inr rfl⟩
  | store | storeOut | root | rootOut => exact .inl rfl

/-- Only STORE_MEM and SQRT write memory: the one cell their operand names, inside the memory (R29). -/
theorem Effect.mem {s u : State} {i : Instr} (h : Effect s i u) :
    u.mem = s.mem ∨ ∃ b v, (i = .storeMem b ∨ i = .sqrt b) ∧ b.toNat < s.cfg.capacity ∧
      u.mem = s.mem.write b.toNat v := by
  cases h with
  | const | load | loadOut | storeOut | rootOut => exact .inl rfl
  | store b hdst => exact .inr ⟨b, _, .inl rfl, inBounds_absoluteAddress_eq_true_iff.1 hdst, rfl⟩
  | root b _ hdst => exact .inr ⟨b, _, .inr rfl, inBounds_absoluteAddress_eq_true_iff.1 hdst, rfl⟩

/-- The image's bytes while there is an image. -/
theorem State.imgBytes_of_img {s : State} {img : List Byte} (h : s.img = some img) : s.imgBytes = img := by
  simp [State.imgBytes, h]

/-- A step that changes the accumulator runs LOAD_CONST or LOAD_MEM. -/
theorem step_acc {s t : State} (h : step s = .next t) :
    t.acc = s.acc ∨ ∃ b, decodeAt s.imgBytes s.pc = .fields 10 b ∨ decodeAt s.imgBytes s.pc = .fields 0 b := by
  obtain ⟨img, -, hi, ⟨-, rfl⟩ | ⟨a, b, hw, ⟨-, rfl⟩ | ⟨-, ⟨-, rfl⟩ | ⟨i, u, hd, hu, rfl⟩⟩⟩⟩ := step_cases h
  case inr.inr.inr =>
    obtain ⟨rfl, rfl⟩ := dispatch_some hd
    rw [State.imgBytes_of_img hi, hw]
    refine hu.acc.imp_right ?_
    rintro ⟨b, rfl | rfl⟩
    · exact ⟨b, .inl rfl⟩
    · exact ⟨b, .inr rfl⟩
  all_goals exact .inl rfl

/-- A step that writes memory runs STORE_MEM or SQRT, and writes the cell of the operand. -/
theorem step_mem {s t : State} (h : step s = .next t) :
    t.mem = s.mem ∨ ∃ b v, (decodeAt s.imgBytes s.pc = .fields 14 b ∨ decodeAt s.imgBytes s.pc = .fields 2 b) ∧
      b.toNat < s.cfg.capacity ∧ t.mem = s.mem.write b.toNat v := by
  obtain ⟨img, -, hi, ⟨-, rfl⟩ | ⟨a, b, hw, ⟨-, rfl⟩ | ⟨-, ⟨-, rfl⟩ | ⟨i, u, hd, hu, rfl⟩⟩⟩⟩ := step_cases h
  case inr.inr.inr =>
    obtain ⟨rfl, rfl⟩ := dispatch_some hd
    rw [State.imgBytes_of_img hi, hw]
    refine hu.mem.imp_right ?_
    rintro ⟨b, v, rfl | rfl, hb, hmem⟩
    · exact ⟨b, v, .inl rfl, hb, hmem⟩
    · exact ⟨b, v, .inr rfl, hb, hmem⟩
  all_goals exact .inl rfl

/-- The one cell a step can change is the operand of a STORE_MEM or SQRT at `pc`, inside the memory. -/
theorem step_read_ne {s t : State} (h : step s = .next t) {a : Nat} (ha : t.mem.read a ≠ s.mem.read a) :
    a < s.cfg.capacity ∧
      ∃ b : Operand, b.toNat = a ∧ (decodeAt s.imgBytes s.pc = .fields 14 b ∨ decodeAt s.imgBytes s.pc = .fields 2 b) := by
  rcases step_mem h with hmem | ⟨b, v, hw, hb, hmem⟩
  · exact absurd (by rw [hmem]) ha
  · obtain rfl : a = b.toNat := by
      by_contra hne
      exact ha (by rw [hmem, Memory.read_write_other _ hne])
    exact ⟨hb, b, rfl, hw⟩

/-- Settles O38: the two laws of what a step writes. -/
theorem whoWritesAccAndMemory : Obligations.WhoWritesAccAndMemory := fun _ _ h =>
  ⟨(step_acc h).resolve_left, fun _ => step_read_ne h⟩

end Sys2Proof.Machine
end

section
/-!
PROOFS about 10_state.md, 60_exceptions.md sections 2 to 4 and 70_reset_and_hazards.md section 2: the canonical memory, and
the invariants of the machine and of its log at reset, at launch and along every step.
-/
namespace Sys2Proof.Machine

/-! Memory. -/

/-- Settles O47: a canonical memory lists exactly its nonzero cells, each once, by rising address. -/
theorem canonicalMemoryIsUnique : Obligations.CanonicalMemoryIsUnique := by
  intro m m' hm hm' hread
  have hmem (e : Nat × Int) : e ∈ m ↔ e ∈ m' := by
    rw [Memory.mem_iff_read hm e.1 e.2, Memory.mem_iff_read hm' e.1 e.2, hread]
  exact hm.1.eq_of_mem_iff hm'.1 hmem

/-- A predicate that holds of 0 and of every listed value holds of every value read. -/
theorem Memory.read_induction {p : Int → Prop} {m : Memory} (h0 : p 0) (hm : ∀ e ∈ m, p e.2) (a : Nat) :
    p (m.read a) := by
  induction m with
  | nil => exact h0
  | cons e m ih =>
    obtain ⟨he, hm⟩ := List.forall_mem_cons.1 hm
    rw [Memory.read]
    split
    · exact he
    · exact ih hm

/-- After a series of writes every entry is one of those written or was there before. -/
theorem Memory.mem_foldl_write {α : Type} {f : α → Nat} {g : α → Int} {l : List α} {m : Memory} {e : Nat × Int}
    (h : e ∈ l.foldl (fun m x => m.write (f x) (g x)) m) : (∃ x ∈ l, e = (f x, g x)) ∨ e ∈ m := by
  induction l generalizing m with
  | nil => exact .inr h
  | cons x l ih =>
    rcases ih h with ⟨y, hy, rfl⟩ | h
    · exact .inl ⟨y, List.mem_cons_of_mem x hy, rfl⟩
    · exact (Memory.mem_write h).imp_left fun h => ⟨x, List.mem_cons_self, h⟩

/-! The invariant, one law for each update of the state. -/

theorem Config.zero_inRange (c : Config) : c.InRange 0 := by
  have : (0 : Int) < 2 ^ (c.cellBits - 1) := by positivity
  simp only [Config.InRange, Config.minCell, Config.maxCell]
  omega

namespace State.Inv

section
variable {s : State} (h : s.Inv)
include h

/-- Every value read fits a cell: a listed one does, and so does 0. -/
theorem read_inRange (a : Nat) : s.cfg.InRange (s.mem.read a) :=
  Memory.read_induction (Config.zero_inRange s.cfg) h.cellRange a

theorem setAcc {v : Int} (hv : s.cfg.InRange v) : (s.setAcc v).Inv :=
  { h with accRange := hv }

theorem memWrite {a : Nat} {v : Int} (ha : a < s.cfg.capacity) (hv : s.cfg.InRange v) : (s.memWrite a v).Inv where
  config := h.config
  cause := h.cause
  pcCount := h.pcCount
  pcInImage := h.pcInImage
  count := h.count
  image := h.image
  accRange := h.accRange
  cellRange e he := by
    rcases Memory.mem_write he with rfl | he
    · exact hv
    · exact h.cellRange e he
  memWf := Memory.wf_write h.memWf a v
  memBound e he := by
    rcases Memory.mem_write he with rfl | he
    · exact ha
    · exact h.memBound e he

theorem appendDiag (k : DiagKind) : (s.appendDiag k).Inv := { h with }

theorem raiseHalt {c : HaltCause} (hc : c ≠ .none) : (s.raiseHalt c).Inv :=
  { h with cause := by simp [hc] }

/-- The common end of an instruction that was fetched below the ceiling, with its 3 bytes in the image. -/
theorem complete (hcount : s.icount < s.cfg.watchdogLimit) (himg : s.pc + 3 ≤ s.imgLen) : s.complete.Inv :=
  { h with
    pcCount := by
      have := h.pcCount
      simp only [State.complete_pc, State.complete_icount]
      omega
    pcInImage := by
      have := h.pcCount
      simp only [State.complete_pc, State.complete_imgLen]
      omega
    count := hcount }

/-- Every instruction's effect keeps the invariant: each value it stores fits a cell, and each cell it writes is inside the
memory. -/
theorem effect {i : Instr} {u : State} (hu : Effect s i u) : u.Inv := by
  obtain ⟨-, hwidth, -⟩ := h.config
  cases hu with
  | const b => exact h.setAcc (zext_inRange h.config b)
  | load b _ => exact h.setAcc (h.read_inRange _)
  | loadOut b _ => exact (h.appendDiag .oobLoad).setAcc (Config.zero_inRange s.cfg)
  | store b hdst => exact h.memWrite (inBounds_absoluteAddress_eq_true_iff.1 hdst) h.accRange
  | storeOut b _ => exact h.appendDiag .oobStore
  | root b _ hdst =>
    exact h.memWrite (inBounds_absoluteAddress_eq_true_iff.1 hdst)
      (isqrt_magnitude_inRange (by omega) (h.read_inRange _))
  | rootOut b _ => exact h.appendDiag .oobSqrt

end

end State.Inv

/-- Where the decoder finds fields, 3 bytes lie in the image. -/
theorem le_imgLen_of_decodeAt {s : State} {img : List Byte} {a : OpcodeField} {b : Operand} (hi : s.img = some img)
    (hw : decodeAt img s.pc = .fields a b) : s.pc + 3 ≤ s.imgLen := by
  rw [State.imgLen, State.imgBytes_of_img hi]
  by_contra hshort
  simp [(decodeAt_endOfProgram_iff img s.pc).2 (not_le.1 hshort)] at hw

/-- Settles O40: a halt names its cause; an instruction's effect and its common end keep the invariant, the latter because
the counter was below the ceiling and 3 bytes lay at `pc`. -/
theorem stepKeepsInvariant : Obligations.StepKeepsInvariant := by
  intro s t hinv h
  obtain ⟨img, -, hi, ⟨-, rfl⟩ | ⟨a, b, hw, ⟨-, rfl⟩ | ⟨hl, ⟨-, rfl⟩ | ⟨i, u, -, hu, rfl⟩⟩⟩⟩ := step_cases h
  · exact hinv.raiseHalt (by decide)
  · exact (hinv.appendDiag .watchdog).raiseHalt (by decide)
  · exact (hinv.appendDiag .illegalOpcode).raiseHalt (by decide)
  · obtain ⟨hcfg, hpc, hcount, -, -, himg⟩ := hu.frame
    have hlen : s.pc + 3 ≤ s.imgLen := le_imgLen_of_decodeAt hi hw
    have himgLen : u.imgLen = s.imgLen := by rw [State.imgLen, State.imgBytes, himg]; rfl
    exact (hinv.effect hu).complete (by rw [hcount, hcfg]; exact hl) (by rw [hpc, himgLen]; exact hlen)

/-- The reset state of a legal machine has the invariant: no image, and pc and the counter at 0. -/
theorem State.inv_resetWith {c : Config} (h : c.Wf) : (State.resetWith c).Inv where
  config := h
  cause := by simp [State.resetWith]
  pcCount := rfl
  pcInImage := Nat.zero_le _
  count := Nat.zero_le _
  image := Nat.two_pow_pos c.pcBits
  accRange := Config.zero_inRange c
  cellRange := by simp [State.resetWith]
  memWf := Memory.wf_nil
  memBound := by simp [State.resetWith]

/-- The parameters after reset are legal, whatever the open ceiling is (R8 to R10). -/
theorem Config.standard_wf : Config.standard.Wf := by
  simp [Config.Wf, Config.standard]

/-- Settles O41: the reset state of any legal parameters, those of `State.reset` among them. -/
theorem resetHasInvariant : Obligations.ResetHasInvariant :=
  ⟨State.inv_resetWith Config.standard_wf, fun _ h => State.inv_resetWith h⟩

/-! Launch. -/

/-- The check of R207 on the values. -/
theorem initValues_iff {c : Config} {init : InitData} :
    WellFormed.initValues c init = true ↔ ∀ e ∈ init, c.InRange e.2 := by
  simp [WellFormed.initValues]

/-- The two checks of R207 together, entry by entry. -/
theorem initEntries_iff {c : Config} {init : InitData} :
    (∀ e ∈ init, 0 ≤ e.1 ∧ e.1 < (c.capacity : Int) ∧ c.InRange e.2) ↔
      WellFormed.initAddresses c init = true ∧ WellFormed.initValues c init = true := by
  simp only [initAddresses_iff, initValues_iff, ← forall₂_and, and_assoc]

/-- A launch succeeds on inputs that pass every check of R205 to R207, and leaves the state of R204. -/
theorem launch_eq_next_iff {c : Config} {img : List Byte} {init : InitData} {s : State} :
    launch c img init = .next s ↔
      s = launchState c img init ∧ c.Wf ∧ img.length < 2 ^ c.pcBits ∧
        (∀ e ∈ init, 0 ≤ e.1 ∧ e.1 < (c.capacity : Int) ∧ c.InRange e.2) ∧ (init.map Prod.fst).Nodup := by
  rw [initEntries_iff, ← initKeys_iff]
  constructor
  · intro h
    obtain ⟨hs, hconfig, himage, haddr, hvalues, hkeys⟩ := launch_next h
    exact ⟨hs, of_decide_eq_true hconfig, of_decide_eq_true himage, ⟨haddr, hvalues⟩, hkeys⟩
  · rintro ⟨rfl, hconfig, himage, ⟨haddr, hvalues⟩, hkeys⟩
    simp [launch, WellFormed.config, WellFormed.image, hconfig, himage, haddr, hvalues, hkeys]

/-- Settles O55: the launch's checks one by one, and the fields of its first state. -/
theorem whichLaunchesThereAre : Obligations.WhichLaunchesThereAre := by
  refine fun c img init => ⟨?_, fun s h => ?_⟩
  · simp only [launch_eq_next_iff, exists_eq_left]
  · obtain ⟨rfl, -⟩ := launch_next h
    exact ⟨rfl, rfl, rfl, rfl, rfl, rfl, rfl⟩

/-- Every entry of a launched machine's memory is one of the initialisation data. -/
theorem mem_initMemory {init : InitData} {e : Nat × Int} (h : e ∈ initMemory init) :
    ∃ x ∈ init, e = (x.1.toNat, x.2) :=
  (Memory.mem_foldl_write h).resolve_right List.not_mem_nil

/-- The first state of a run has the invariant, by the checks of its launch. -/
theorem inv_of_launch {c : Config} {img : List Byte} {init : InitData} {s : State} (h : launch c img init = .next s) :
    s.Inv := by
  obtain ⟨rfl, hconfig, himage, hinit, -⟩ := launch_eq_next_iff.1 h
  exact
    { config := hconfig
      cause := by simp [launchState]
      pcCount := rfl
      pcInImage := Nat.zero_le _
      count := Nat.zero_le _
      image := himage
      accRange := Config.zero_inRange c
      cellRange := by
        intro e he
        obtain ⟨x, hx, rfl⟩ := mem_initMemory he
        obtain ⟨-, -, hvalue⟩ := hinit x hx
        exact hvalue
      memWf := initMemory_wf init
      memBound := by
        intro e he
        obtain ⟨x, hx, rfl⟩ := mem_initMemory he
        obtain ⟨hlow, hhigh, -⟩ := hinit x hx
        show x.1.toNat < c.capacity
        omega }

/-- The launch's log is its own event or empty, and no halt has been (R205). -/
theorem logMatches_launchState (c : Config) (img : List Byte) (init : InitData) :
    (launchState c img init).LogMatches := by
  refine ⟨launchDiag img, (List.append_nil _).symm, fun e he => ?_⟩
  obtain rfl : e = ⟨.truncatedImage, 0⟩ := by
    unfold launchDiag at he
    split at he
    · cases he
    · exact List.mem_singleton.1 he
  exact ⟨rfl, .inl ⟨rfl, rfl⟩⟩

/-- Settles O42: the launch's checks give the invariant, and its log holds nothing but its own event. -/
theorem launchHasInvariant : Obligations.LaunchHasInvariant := by
  intro c img init s h
  refine ⟨inv_of_launch h, ?_⟩
  obtain ⟨rfl, -⟩ := launch_next h
  exact logMatches_launchState c img init

/-! The log. -/

/-- While the machine runs, its log is the non-fatal events alone. -/
theorem State.LogMatches.of_none {s : State} (h : s.LogMatches) (hc : s.haltCause = .none) :
    ∀ e ∈ s.diag, e.kind.nonFatal = true ∧ (e.kind = .truncatedImage ∧ e.pc = 0 ∨ e.pc < s.pc) := by
  obtain ⟨earlier, hdiag, hearlier⟩ := h
  rw [hdiag, hc, haltEvents, List.append_nil]
  exact hearlier

/-- Settles O43: a halt appends the one event of its cause; an instruction's event lies at the old `pc`, below the new. -/
theorem stepKeepsLogMatching : Obligations.StepKeepsLogMatching := by
  intro s t hinv hlog h
  obtain ⟨img, hr, -, hcases⟩ := step_cases h
  have hcause : s.haltCause = .none := hinv.cause.1 hr
  have hold := hlog.of_none hcause
  obtain ⟨-, rfl⟩ | ⟨a, b, -, ⟨-, rfl⟩ | ⟨-, ⟨-, rfl⟩ | ⟨i, u, -, hu, rfl⟩⟩⟩ := hcases
  · exact ⟨s.diag, (List.append_nil _).symm, hold⟩
  · exact ⟨s.diag, rfl, hold⟩
  · exact ⟨s.diag, rfl, hold⟩
  · obtain ⟨-, hpc, -, -, hc, -⟩ := hu.frame
    have hnew : ∀ e ∈ s.diag, e.kind.nonFatal = true ∧ (e.kind = .truncatedImage ∧ e.pc = 0 ∨ e.pc < s.pc + 3) :=
      fun e he => (hold e he).imp_right (Or.imp_right (Nat.lt_add_right 3))
    refine ⟨u.diag, by simp [hc, hcause, haltEvents], ?_⟩
    rw [State.complete_pc, hpc]
    rcases hu.diag with hdiag | ⟨k, hdiag, hk, -⟩
    · rwa [hdiag]
    · rw [hdiag, List.forall_mem_append, List.forall_mem_singleton]
      exact ⟨hnew, hk, .inr (Nat.lt_add_of_pos_right (by decide))⟩

/-- A step appends to the log, and never the launch's event (R35, R205). -/
theorem step_diag {s t : State} (h : step s = .next t) :
    ∃ new, t.diag = s.diag ++ new ∧ ∀ e ∈ new, e.kind ≠ .truncatedImage := by
  obtain ⟨img, -, -, ⟨-, rfl⟩ | ⟨a, b, -, ⟨-, rfl⟩ | ⟨-, ⟨-, rfl⟩ | ⟨i, u, -, hu, rfl⟩⟩⟩⟩ := step_cases h
  · exact ⟨[], (List.append_nil _).symm, by simp⟩
  · exact ⟨[⟨.watchdog, s.pc⟩], rfl, by simp⟩
  · exact ⟨[⟨.illegalOpcode, s.pc⟩], rfl, by simp⟩
  · rcases hu.diag with hdiag | ⟨k, hdiag, -, hk⟩
    · exact ⟨[], by simpa using hdiag, by simp⟩
    · exact ⟨[⟨k, s.pc⟩], hdiag, by simpa using hk⟩

/-- The launch's event is logged exactly for a truncated image (R205). -/
theorem mem_launchDiag_iff (img : List Byte) : (⟨.truncatedImage, 0⟩ : Event) ∈ launchDiag img ↔ img.length % 3 ≠ 0 := by
  unfold launchDiag
  split <;> simp [*]

/-- Settles O19: SQRT's arm of R173, the events a step appends, and the launch's. -/
theorem oobSqrtEvent : Obligations.OobSqrtEvent := by
  refine ⟨rfl, rfl, rfl, rfl, fun b s hout => ?_, fun _ _ => step_diag, fun c img init s h => ?_⟩
  · have hout := hout.imp inBounds_eq_false_iff.2 inBounds_absoluteAddress_eq_false_iff.2
    exact ⟨_, exec_sqrt_outOfBounds hout, rfl, rfl, rfl⟩
  · obtain ⟨rfl, -⟩ := launch_next h
    exact mem_launchDiag_iff img

end Sys2Proof.Machine
end

section
/-!
PROOFS about sequences of instructions (41_load_const.md, 42_load_mem_store_mem.md, 43_sqrt.md), each instruction by its
step.
-/
namespace Sys2Proof.Machine

/-- A step whose fetch finds LOAD_CONST. -/
theorem step_loadConst {s : State} {img : List Byte} {b : Operand} (hr : s.run = .running) (hi : s.img = some img)
    (hl : s.icount < s.cfg.watchdogLimit) (hw : decodeAt img s.pc = .fields 10 b) :
    step s = .next (s.setAcc (zext b)).complete :=
  step_exec hr hi hw hl (Laws.Dispatch.loadConst b)

/-- A step whose fetch finds LOAD_MEM in bounds. -/
theorem step_loadMem {s : State} {img : List Byte} {b : Operand} (hr : s.run = .running) (hi : s.img = some img)
    (hl : s.icount < s.cfg.watchdogLimit) (hw : decodeAt img s.pc = .fields 0 b)
    (hb : inBounds s.cfg (loadAddress b s) = true) :
    step s = .next (s.setAcc (s.mem.read (loadAddress b s).toNat)).complete :=
  (step_exec hr hi hw hl (Laws.Dispatch.loadMem b)).trans (exec_loadMem_inBounds hb)

/-- A step whose fetch finds STORE_MEM in bounds. -/
theorem step_storeMem {s : State} {img : List Byte} {b : Operand} (hr : s.run = .running) (hi : s.img = some img)
    (hl : s.icount < s.cfg.watchdogLimit) (hw : decodeAt img s.pc = .fields 14 b) (hb : b.toNat < s.cfg.capacity) :
    step s = .next (s.memWrite b.toNat s.acc).complete :=
  (step_exec hr hi hw hl (Laws.Dispatch.storeMem b)).trans (exec_storeMem_inBounds hb)

/-- A constant in bounds is an address in bounds. -/
theorem inBounds_zext {c : Config} {b : Operand} (h : b.toNat < c.capacity) : inBounds c (zext b) = true :=
  inBounds_absoluteAddress_eq_true_iff.2 h

/-- Settles O24: the out-of-bounds arm completes, and the machine it leaves is running below its ceiling. -/
theorem oobLoadThenNextInstruction : Obligations.OobLoadThenNextInstruction := by
  intro s img b i a' b' hr hi hl hw hout hw' hd
  have hload : step s = .next ((s.appendDiag .oobLoad).setAcc 0).complete :=
    (step_exec hr hi hw (by omega) (Laws.Dispatch.loadMem b)).trans
      (exec_loadMem_outOfBounds (inBounds_eq_false_iff.2 hout))
  exact ⟨_, hload, rfl, hr, rfl, step_exec hr hi hw' hl hd⟩

/-- Settles O25: the two steps, and a read after the write of the second. -/
theorem constThenStore : Obligations.ConstThenStore := by
  intro s img c addr hr hi hl hc hstore haddr
  have h1 : step s = .next (s.setAcc (zext c)).complete := step_loadConst hr hi (by omega) hc
  have h2 := step_storeMem (s := (s.setAcc (zext c)).complete) hr hi hl hstore haddr
  exact ⟨_, _, h1, h2, Memory.read_write_same _ _ _, rfl, hr, fun a ha => Memory.read_write_other _ ha _⟩

/-- Settles O26: the three steps; the accumulator is the source address after the first, the source's value after the
second. -/
theorem copyOneCell : Obligations.CopyOneCell := by
  intro s img src dst hr hi hl hconst hload hstore hsrc hdst
  have h1 : step s = .next (s.setAcc (zext src)).complete := step_loadConst hr hi (by omega) hconst
  have haddr : loadAddress 0 (s.setAcc (zext src)).complete = zext src := by simp [loadAddress]
  have h2 := step_loadMem (s := (s.setAcc (zext src)).complete) hr hi (Nat.lt_of_succ_lt hl) hload
    (haddr ▸ inBounds_zext hsrc)
  rw [haddr] at h2
  exact ⟨_, _, _, h1, h2, step_storeMem hr hi hl hstore hdst, Memory.read_write_same _ _ _, rfl, rfl,
    fun a ha => Memory.read_write_other _ ha _⟩

/-- Settles O27: SQRT reads the cell that the constant names before it writes it. -/
theorem sqrtInPlace : Obligations.SqrtInPlace := by
  intro s img a hr hi hl hconst hsqrt ha
  have h1 : step s = .next (s.setAcc (zext a)).complete := step_loadConst hr hi (by omega) hconst
  have hsrc : inBounds s.cfg (accAddress (s.setAcc (zext a)).complete) = true := inBounds_zext ha
  have h2 := (step_exec (s := (s.setAcc (zext a)).complete) hr hi hsqrt hl (Laws.Dispatch.sqrt a)).trans
    (exec_sqrt_inBounds hsrc ha)
  exact ⟨_, _, h1, h2, rfl, ⟨_, isqrt_isFloorSqrt _, Memory.read_write_same _ _ _⟩,
    fun x hx => Memory.read_write_other _ hx _⟩

end Sys2Proof.Machine
end

section
/-!
PROOFS about runs: what every step keeps a run keeps, and what no step reads no run depends on (10_state.md sections 5, 7
and 8, 20_memory.md sections 1 and 4, 30_encoding.md section 2).
-/
namespace Sys2Proof.Machine

/-! What a run keeps. -/

/-- What every step keeps holds wherever a run stands. -/
theorem runFor_induction {p : State → Prop} (hstep : ∀ s t, p s → step s = .next t → p t) {s : State} (hs : p s)
    (n : Nat) : p (runFor n s) := by
  induction n generalizing s with
  | zero => exact hs
  | succ n ih =>
    rw [runFor]
    split
    · next t ht => exact ih (hstep s t hs ht)
    · exact hs
    · exact hs

/-- No step changes the parameters (log 1). -/
theorem step_cfg {s t : State} (h : step s = .next t) : t.cfg = s.cfg := by
  obtain ⟨img, -, -, ⟨-, rfl⟩ | ⟨a, b, -, ⟨-, rfl⟩ | ⟨-, ⟨-, rfl⟩ | ⟨i, u, -, hu, rfl⟩⟩⟩⟩ := step_cases h
  case inr.inr.inr =>
    obtain ⟨hcfg, -⟩ := hu.frame
    exact hcfg
  all_goals rfl

theorem runFor_img (n : Nat) (s : State) : (runFor n s).img = s.img :=
  runFor_induction (p := fun u => u.img = s.img) (fun _ _ hu h => (step_img h).trans hu) rfl n

theorem runFor_cfg (n : Nat) (s : State) : (runFor n s).cfg = s.cfg :=
  runFor_induction (p := fun u => u.cfg = s.cfg) (fun _ _ hu h => (step_cfg h).trans hu) rfl n

/-- Settles O37: no step changes the image or the parameters, and the decoder looks at the image only. -/
theorem fetchNeverSeesStores : Obligations.FetchNeverSeesStores := fun n s =>
  ⟨runFor_img n s, runFor_cfg n s, fun _ => by rw [State.imgBytes, State.imgBytes, runFor_img]⟩

/-- A step writes no cell beyond the 4096 an operand can name (R53). -/
theorem step_read_high {s t : State} (h : step s = .next t) {a : Nat} (ha : 4096 ≤ a) : t.mem.read a = s.mem.read a := by
  by_contra hne
  obtain ⟨-, b, rfl, -⟩ := step_read_ne h hne
  have := b.isLt
  omega

/-- Settles O39: an operand is below 4096, for the cells a run writes and for the bounds test. -/
theorem highCellsNeverWritten : Obligations.HighCellsNeverWritten := by
  refine ⟨fun n s a ha => ?_, fun b s hcap => ?_⟩
  · exact runFor_induction (p := fun u => u.mem.read a = s.mem.read a)
      (fun _ _ hu h => (step_read_high h ha).trans hu) rfl n
  · have hb := b.isLt
    exact ⟨_, exec_storeMem_inBounds (by omega), rfl, Memory.read_write_same _ _ _⟩

/-! What a run does not depend on: a change of the state that no step sees commutes with the step. -/

/-- The outcome with a change made to the next state. -/
def mapNext (f : State → State) : Host.Outcome State Fault Refusal → Host.Outcome State Fault Refusal
  | .next t => .next (f t)
  | .fault r => .fault r
  | .refused r => .refused r

/-- A change of the state that no instruction sees: it leaves what the rules read, the image apart, and commutes with every
update they make. -/
structure Unseen (f : State → State) : Prop where
  acc : ∀ s, (f s).acc = s.acc
  pc : ∀ s, (f s).pc = s.pc
  icount : ∀ s, (f s).icount = s.icount
  run : ∀ s, (f s).run = s.run
  mem : ∀ s, (f s).mem = s.mem
  capacity : ∀ s, (f s).cfg.capacity = s.cfg.capacity
  watchdogLimit : ∀ s, (f s).cfg.watchdogLimit = s.cfg.watchdogLimit
  setAcc : ∀ s v, (f s).setAcc v = f (s.setAcc v)
  memWrite : ∀ s a v, (f s).memWrite a v = f (s.memWrite a v)
  appendDiag : ∀ s k, (f s).appendDiag k = f (s.appendDiag k)
  raiseHalt : ∀ s c, (f s).raiseHalt c = f (s.raiseHalt c)
  complete : ∀ s, (f s).complete = f s.complete

section
variable {f : State → State} (hf : Unseen f)
include hf

theorem Unseen.inBounds (s : State) (a : Int) : Machine.inBounds (f s).cfg a = Machine.inBounds s.cfg a := by
  rw [Machine.inBounds, Machine.inBounds, hf.capacity]

theorem Unseen.loadAddress (s : State) (b : Operand) : Machine.loadAddress b (f s) = Machine.loadAddress b s := by
  rw [Machine.loadAddress, Machine.loadAddress, hf.acc]

/-- An instruction has its effect on the changed state as on the state itself. -/
theorem Unseen.effect {s u : State} {i : Instr} (h : Effect s i u) : Effect (f s) i (f u) := by
  cases h with
  | const b =>
    rw [← hf.setAcc]
    exact .const b
  | load b h =>
    rw [← hf.setAcc, ← hf.mem, ← hf.loadAddress]
    exact .load b (by rwa [hf.inBounds, hf.loadAddress])
  | loadOut b h =>
    rw [← hf.setAcc, ← hf.appendDiag]
    exact .loadOut b (by rwa [hf.inBounds, hf.loadAddress])
  | store b h =>
    rw [← hf.memWrite, ← hf.acc]
    exact .store b (by rwa [hf.inBounds])
  | storeOut b h =>
    rw [← hf.appendDiag]
    exact .storeOut b (by rwa [hf.inBounds])
  | root b hs hd =>
    rw [← hf.memWrite, ← hf.acc, ← hf.mem]
    exact .root b (by rwa [hf.inBounds, accAddress, hf.acc]) (by rwa [hf.inBounds])
  | rootOut b h =>
    rw [← hf.appendDiag]
    exact .rootOut b (by rwa [hf.inBounds, hf.inBounds, accAddress, hf.acc])

end

/-- An instruction's effect is what it does: in each state it has one only. -/
theorem Effect.exec_eq {s u : State} {i : Instr} (h : Effect s i u) : exec i s = .next u.complete := by
  cases h with
  | const b => exact exec_loadConst b s
  | load b h => exact exec_loadMem_inBounds h
  | loadOut b h => exact exec_loadMem_outOfBounds h
  | store b h => exact exec_storeMem_inBounds (inBounds_absoluteAddress_eq_true_iff.1 h)
  | storeOut b h => exact exec_storeMem_outOfBounds h
  | root b hs hd => exact exec_sqrt_inBounds hs (inBounds_absoluteAddress_eq_true_iff.1 hd)
  | rootOut b h => exact exec_sqrt_outOfBounds (Bool.and_eq_false_iff.1 h)

section
variable {f : State → State} (hf : Unseen f)
include hf

theorem Unseen.exec (i : Instr) (s : State) : exec i (f s) = mapNext f (exec i s) := by
  obtain ⟨u, hu, hexec⟩ := exec_effect i s
  rw [hexec, (hf.effect hu).exec_eq, hf.complete]
  rfl

/-- A step on an image that holds the same fields at `pc`. -/
theorem Unseen.step {s : State} (himg : (f s).img.map (decodeAt · s.pc) = s.img.map (decodeAt · s.pc)) :
    step (f s) = mapNext f (step s) := by
  cases hr : s.run with
  | halted => rw [step_halted hr, step_halted ((hf.run s).trans hr), mapNext]
  | running =>
    have hr' : (f s).run = .running := (hf.run s).trans hr
    cases hi : s.img with
    | none =>
      have hi' : (f s).img = none := by simpa [hi] using himg
      rw [step_notLaunched hr hi, step_notLaunched hr' hi', mapNext]
    | some img =>
      obtain ⟨img', hi', hsame⟩ : ∃ img', (f s).img = some img' ∧ decodeAt img' s.pc = decodeAt img s.pc := by
        simpa [hi] using himg
      cases hw : decodeAt img s.pc with
      | endOfProgram =>
        have hw' : decodeAt img' (f s).pc = .endOfProgram := by rw [hf.pc, hsame, hw]
        rw [step_endOfProgram hr hi hw, step_endOfProgram hr' hi' hw', hf.raiseHalt, mapNext]
      | fields a b =>
        have hw' : decodeAt img' (f s).pc = .fields a b := by rw [hf.pc, hsame, hw]
        by_cases hl : s.cfg.watchdogLimit ≤ s.icount
        · have hl' : (f s).cfg.watchdogLimit ≤ (f s).icount := by rwa [hf.watchdogLimit, hf.icount]
          rw [step_watchdog hr hi hw hl, step_watchdog hr' hi' hw' hl', hf.appendDiag, hf.raiseHalt, mapNext]
        · have hl' : (f s).icount < (f s).cfg.watchdogLimit := by rw [hf.watchdogLimit, hf.icount]; exact not_le.1 hl
          cases hd : dispatch a b with
          | none =>
            rw [step_illegalOpcode hr hi hw (not_le.1 hl) hd, step_illegalOpcode hr' hi' hw' hl' hd, hf.appendDiag,
              hf.raiseHalt, mapNext]
          | some i => rw [step_exec hr hi hw (not_le.1 hl) hd, step_exec hr' hi' hw' hl' hd, hf.exec]

end

/-- A change that commutes with every step of a run commutes with the run. -/
theorem runFor_comm {f : State → State} {p : State → Prop} (hp : ∀ s t, p s → step s = .next t → p t)
    (hf : ∀ s, p s → step (f s) = mapNext f (step s)) {s : State} (hs : p s) (n : Nat) :
    runFor n (f s) = f (runFor n s) := by
  induction n generalizing s with
  | zero => rfl
  | succ n ih =>
    simp only [runFor, hf s hs]
    cases h : step s with
    | next t => exact ih (hp s t hs h)
    | fault r => rfl
    | refused r => rfl

/-- The state with a log put before its own. -/
def State.prependLog (d : List Event) (s : State) : State := { s with diag := d ++ s.diag }

theorem unseen_prependLog (d : List Event) : Unseen (State.prependLog d) := by
  constructor <;> intros
  case appendDiag => simp [State.appendDiag, State.prependLog]
  all_goals rfl

/-- A step with a log put before the state's own appends the same to it. -/
theorem step_prependLog (d : List Event) (s : State) :
    step (s.prependLog d) = mapNext (State.prependLog d) (step s) :=
  (unseen_prependLog d).step rfl

/-- Settles O44: a step is that of the machine with an empty log, put behind the log there is. -/
theorem logIsNeverRead : Obligations.LogIsNeverRead := by
  intro s d
  have hsplit (d : List Event) : { s with diag := d } = State.prependLog d { s with diag := [] } := by
    simp [State.prependLog]
  have hstep (d : List Event) : step { s with diag := d } = mapNext (State.prependLog d) (step { s with diag := [] }) :=
    hsplit d ▸ step_prependLog d _
  have hs : step s = mapNext (State.prependLog s.diag) (step { s with diag := [] }) := hstep s.diag
  rw [hs, hstep d]
  cases step { s with diag := [] } with
  | next u =>
    refine ⟨?_, fun r h => by cases h⟩
    rintro _ ⟨⟩
    exact ⟨u.diag, rfl, rfl⟩
  | fault r => exact ⟨fun t h => (by cases h), fun _ h => h⟩
  | refused r => exact ⟨fun t h => (by cases h), fun _ h => h⟩

/-- The state with other widths of cells and program counter. -/
def State.withWidths (w p : Nat) (s : State) : State := { s with cfg := { s.cfg with cellBits := w, pcBits := p } }

theorem unseen_withWidths (w p : Nat) : Unseen (State.withWidths w p) := by
  constructor <;> intros <;> rfl

/-- Settles O46: no step sees the widths. -/
theorem widthsNeverMatter : Obligations.WidthsNeverMatter := by
  intro n s w p
  have hrun : runFor n (s.withWidths w p) = (runFor n s).withWidths w p :=
    runFor_comm (p := fun _ => True) (fun _ _ _ _ => trivial) (fun _ _ => (unseen_withWidths w p).step rfl) trivial n
  rwa [State.withWidths, State.withWidths, runFor_cfg] at hrun

/-- The state with another image. -/
def State.withImage (img : List Byte) (s : State) : State := { s with img := some img }

theorem unseen_withImage (img : List Byte) : Unseen (State.withImage img) := by
  constructor <;> intros <;> rfl

/-- At a multiple of 3 the decoder looks at no byte whose offset is 2 modulo 3 (R85, R115). -/
theorem decodeAt_congr {img img' : List Byte} {off : Nat} (hoff : off % 3 = 0) (hlen : img.length = img'.length)
    (hbytes : ∀ k : Nat, k % 3 ≠ 2 → img[k]? = img'[k]?) : decodeAt img' off = decodeAt img off := by
  by_cases hshort : img.length < off + 3
  · rw [(decodeAt_endOfProgram_iff img off).2 hshort, (decodeAt_endOfProgram_iff img' off).2 (hlen ▸ hshort)]
  · have h0 : img[off]? = some img[off] := List.getElem?_eq_getElem (by omega)
    have h1 : img[off + 1]? = some img[off + 1] := List.getElem?_eq_getElem (by omega)
    have h2 : img[off + 2]? = some img[off + 2] := List.getElem?_eq_getElem (by omega)
    have h2' : img'[off + 2]? = some img'[off + 2] := List.getElem?_eq_getElem (by omega)
    have h0' := (hbytes off (by omega)).symm.trans h0
    have h1' := (hbytes (off + 1) (by omega)).symm.trans h1
    rw [decodeAt_of_bytes h0 h1 h2, decodeAt_of_bytes h0' h1' h2']

/-- Settles O45: `pc` stays a multiple of 3, where the decoder finds the same in both images. -/
theorem reservedByteIsIgnored : Obligations.ReservedByteIsIgnored := by
  intro n s img img' hpc hlen hbytes
  refine runFor_comm (f := State.withImage img') (p := fun u => u.img = some img ∧ u.pc % 3 = 0) ?_ ?_
    (s := { s with img := some img }) ⟨rfl, hpc⟩ n
  · rintro u t ⟨himg, hu⟩ h
    refine ⟨(step_img h).trans himg, ?_⟩
    rcases step_pc_run h with ⟨-, ht⟩ | ⟨-, ht⟩ <;> omega
  · rintro u ⟨himg, hu⟩
    refine (unseen_withImage img').step ?_
    rw [himg]
    exact congrArg some (decodeAt_congr hu hlen hbytes)

end Sys2Proof.Machine
end

section
/-!
PROOFS about whole runs (40_fetch_decode_dispatch.md section 6, 60_exceptions.md sections 2 and 11): every run halts, and it
is the run of the engine that decodes at load.
-/
namespace Sys2Proof.Machine

/-! Every run halts. -/

/-- The invariant holds wherever a run stands. -/
theorem runFor_inv {s : State} (h : s.Inv) (n : Nat) : (runFor n s).Inv :=
  runFor_induction (p := State.Inv) stepKeepsInvariant h n

/-- A run from a state with the invariant executes no more instructions than the image holds and the ceiling allows. -/
theorem runFor_icount_le {s : State} (h : s.Inv) (n : Nat) :
    (runFor n s).icount ≤ min (s.imgLen / 3) s.cfg.watchdogLimit := by
  have hend := runFor_inv h n
  have hpc := hend.pcInImage
  have hcount := hend.count
  rw [hend.pcCount, State.imgLen, State.imgBytes, runFor_img] at hpc
  rw [runFor_cfg] at hcount
  exact le_min (Nat.le_of_mul_le_mul_left hpc (by decide)) hcount

/-- A run is halted within its bound: one that is not has executed an instruction a step, one too many (R122). -/
theorem State.final_run {s : State} (h : s.Inv) (hi : s.img ≠ none) : s.final.run = .halted := by
  cases hrun : s.final.run with
  | halted => rfl
  | running =>
    have hpc : s.final.pc = s.pc + 3 * s.stepBound := runFor_pc_of_running hrun hi
    have hcount : s.final.pc = 3 * s.final.icount := (runFor_inv h s.stepBound).pcCount
    have hle : s.final.icount < s.stepBound := Nat.lt_succ_of_le (runFor_icount_le h s.stepBound)
    omega

/-- Settles O48: the bound on steps, and the invariant's bound on the counter. -/
theorem everyRunHalts : Obligations.EveryRunHalts := fun s h _ hi =>
  ⟨State.final_run h hi, runFor_icount_le h s.stepBound⟩

/-- Settles O51: a halted machine with the invariant has a cause, which is one of three. -/
theorem everyRunIsClassified : Obligations.EveryRunIsClassified := by
  intro s h _ hi
  have hhalt : s.final.run = .halted := State.final_run h hi
  have hcause : s.final.haltCause ≠ .none := fun hc => by
    cases hhalt.symm.trans ((runFor_inv h s.stepBound).cause.2 hc)
  simp only [State.EndedCleanly, State.EndedNormally, State.EndedAbnormally, hhalt, true_and]
  cases hc : s.final.haltCause with
  | none => exact absurd hc hcause
  | endOfImage | illegalOpcode | watchdog => simp

/-! Decoding at load. -/

/-- Where the decoder finds the end of the program, no complete instruction is left. -/
theorem decodeAll_drop_of_endOfProgram {img : List Byte} {off : Nat} (h : decodeAt img off = .endOfProgram) :
    decodeAll (img.drop off) = [] := by
  unfold decodeAt at h
  match hl : img.drop off with
  | [] | [_] | [_, _] => rfl
  | _ :: _ :: _ :: _ => simp [hl] at h

/-- Where the decoder finds two fields, they come first, before those of the rest. -/
theorem decodeAll_drop_of_fields {img : List Byte} {off : Nat} {a : OpcodeField} {b : Operand}
    (h : decodeAt img off = .fields a b) : decodeAll (img.drop off) = (a, b) :: decodeAll (img.drop (off + 3)) := by
  unfold decodeAt at h
  rw [← List.drop_drop]
  match hl : img.drop off with
  | [] | [_] | [_, _] => simp [hl, unpack] at h
  | _ :: _ :: _ :: _ =>
    rw [hl, unpack_cons, Window.fields.injEq] at h
    obtain ⟨rfl, rfl⟩ := h
    rfl

/-- The length of a decoded image is the number of its complete instructions. -/
theorem decodeAll_length (img : List Byte) : (decodeAll img).length = img.length / 3 := by
  induction img using decodeAll.induct with
  | case1 byte0 byte1 byte2 rest ih =>
    simp only [decodeAll, List.length_cons, ih]
    omega
  | case2 l hshort =>
    match l with
    | [] | [_] | [_, _] => simp [decodeAll]
    | byte0 :: byte1 :: byte2 :: rest => exact absurd rfl (hshort byte0 byte1 byte2 rest)

/-- The two engines side by side: a run that halts from a running machine ends where the run over the fields decoded from
`pc` on ends. -/
theorem runFor_eq_runDecoded {n : Nat} {s : State} {img : List Byte} (hr : s.run = .running) (hi : s.img = some img)
    (hhalt : (runFor n s).run = .halted) : runFor n s = runDecoded (decodeAll (img.drop s.pc)) s := by
  induction n generalizing s with
  | zero => cases hr.symm.trans hhalt
  | succ n ih =>
    cases hw : decodeAt img s.pc with
    | endOfProgram =>
      rw [runFor_succ_of_step (step_endOfProgram hr hi hw), runFor_halted rfl, decodeAll_drop_of_endOfProgram hw]
      rfl
    | fields a b =>
      rw [decodeAll_drop_of_fields hw, runDecoded]
      by_cases hl : s.cfg.watchdogLimit ≤ s.icount
      · rw [runFor_succ_of_step (step_watchdog hr hi hw hl), runFor_halted rfl, if_pos hl]
        rfl
      · rw [if_neg hl]
        cases hd : dispatch a b with
        | none =>
          rw [runFor_succ_of_step (step_illegalOpcode hr hi hw (not_le.1 hl) hd), runFor_halted rfl]
          rfl
        | some i =>
          obtain ⟨u, hu, hexec⟩ := exec_effect i s
          obtain ⟨-, hpc, -, hrun, -, himg⟩ := hu.frame
          have hstep : step s = .next u.complete := (step_exec hr hi hw (not_le.1 hl) hd).trans hexec
          rw [runFor_succ_of_step hstep] at hhalt ⊢
          simp only [hexec]
          rw [ih (s := u.complete) (hrun.trans hr) (himg.trans hi) hhalt, State.complete_pc, hpc]

/-- The run of a launched machine is the run over its image decoded at load. -/
theorem final_eq_runDecoded {c : Config} {img : List Byte} {init : InitData} {s : State}
    (h : launch c img init = .next s) : s.final = runDecoded (decodeAll img) s := by
  have hinv : s.Inv := inv_of_launch h
  obtain ⟨rfl, -⟩ := launch_next h
  exact runFor_eq_runDecoded rfl rfl (State.final_run hinv (by simp [launchState]))

/-- Settles O50: the two engines side by side, from offset 0. -/
theorem decodeAtLoadIsTheSame : Obligations.DecodeAtLoadIsTheSame := fun _ _ _ _ => final_eq_runDecoded

/-! How a run over decoded instructions ends. -/

/-- How a run over decoded instructions ends when so many instructions may still be executed: after all of them, or at the
first illegal one, or at the ceiling (R123). -/
def endCause (instrs : List (OpcodeField × Operand)) (room : Nat) : HaltCause :=
  if legalPrefix instrs = instrs.length ∧ instrs.length ≤ room then .endOfImage
  else if legalPrefix instrs < room then .illegalOpcode
  else .watchdog

theorem legalPrefix_le_length (instrs : List (OpcodeField × Operand)) : legalPrefix instrs ≤ instrs.length := by
  induction instrs with
  | nil => exact Nat.le_refl 0
  | cons ab rest ih =>
    rw [legalPrefix, List.length_cons]
    split <;> omega

/-- The end of a run over decoded instructions: its cause, its counter and its `pc`. -/
theorem runDecoded_end {instrs : List (OpcodeField × Operand)} {s : State} {room : Nat}
    (hroom : s.cfg.watchdogLimit = s.icount + room) :
    (runDecoded instrs s).haltCause = endCause instrs room ∧
      (runDecoded instrs s).icount = s.icount + min (legalPrefix instrs) room ∧
      (runDecoded instrs s).pc = s.pc + 3 * min (legalPrefix instrs) room := by
  induction instrs generalizing s room with
  | nil => simp [runDecoded, endCause, legalPrefix]
  | cons ab rest ih =>
    obtain ⟨a, b⟩ := ab
    rw [runDecoded, endCause, legalPrefix]
    cases room with
    | zero => simp [hroom]
    | succ room =>
      rw [if_neg (by omega)]
      cases hd : dispatch a b with
      | none => simp
      | some i =>
        obtain ⟨u, hu, hexec⟩ := exec_effect i s
        obtain ⟨hcfg, hpc, hcount, -, -, -⟩ := hu.frame
        have hroom' : u.complete.cfg.watchdogLimit = u.complete.icount + room := by
          rw [State.complete_cfg, State.complete_icount, hcfg, hcount]
          omega
        obtain ⟨hcause, hend, hendpc⟩ := ih hroom'
        simp only [hexec, hcause, hend, hendpc, Option.isSome_some, if_true, endCause, List.length_cons,
          Nat.add_le_add_iff_right, Nat.add_lt_add_iff_right, Nat.add_right_cancel_iff, State.complete_icount,
          State.complete_pc, hpc, hcount, true_and]
        omega

/-- Which of the three ends it is, by the number of legal instructions at the head, of instructions, and the ceiling. -/
theorem endCause_iff (instrs : List (OpcodeField × Operand)) (room : Nat) :
    (endCause instrs room = .watchdog ↔ room < instrs.length ∧ room ≤ legalPrefix instrs) ∧
    (endCause instrs room = .illegalOpcode ↔ legalPrefix instrs < instrs.length ∧ legalPrefix instrs < room) ∧
    (endCause instrs room = .endOfImage ↔ legalPrefix instrs = instrs.length ∧ instrs.length ≤ room) := by
  have hle := legalPrefix_le_length instrs
  unfold endCause
  split_ifs <;> simp <;> omega

/-- Settles O49: the end of the run over the image decoded at load. -/
theorem howEveryRunEnds : Obligations.HowEveryRunEnds := by
  intro c img init s h
  rw [final_eq_runDecoded h]
  obtain ⟨rfl, -⟩ := launch_next h
  obtain ⟨hcause, hcount, hpc⟩ :=
    runDecoded_end (instrs := decodeAll img) (s := launchState c img init) (Nat.zero_add c.watchdogLimit).symm
  obtain ⟨hwatchdog, hillegal, hend⟩ := endCause_iff (decodeAll img) c.watchdogLimit
  rw [decodeAll_length] at hwatchdog hillegal hend
  rw [hcause, hcount, hpc]
  exact ⟨hwatchdog, hillegal, hend, Nat.zero_add _, Nat.zero_add _⟩

end Sys2Proof.Machine
end

section
/-!
PROOFS about 70_reset_and_hazards.md sections 1 and 3: the reset values, the snapshot, and what the host may do.
-/
namespace Sys2Proof.Machine

/-- Settles O53: each is a field of the reset state. -/
theorem otherResetValues : Obligations.OtherResetValues :=
  ⟨rfl, rfl, rfl, rfl, rfl, rfl, rfl⟩

/-- The clamped range has the addresses of the range that lie in the memory (R212). -/
theorem clamp_range_iff (c : Config) (start stop : Int) (a : Nat) :
    clamp c start ≤ a ∧ a < clamp c stop ↔ start ≤ a ∧ (a : Int) < stop ∧ a < c.capacity := by
  unfold clamp
  omega

/-- The entries of a snapshot of a canonical memory. -/
theorem mem_nonzeroCells_iff {c : Config} {m : Memory} (h : m.Wf) (start stop : Int) (a : Nat) (v : Int) :
    (a, v) ∈ nonzeroCells m (clamp c start) (clamp c stop) ↔
      start ≤ a ∧ (a : Int) < stop ∧ a < c.capacity ∧ m.read a = v ∧ v ≠ 0 := by
  rw [nonzeroCells, List.mem_filter, decide_eq_true_iff, clamp_range_iff, Memory.mem_iff_read h]
  tauto

theorem snapshot_halted {s : State} (h : s.run = .halted) (start stop : Int) :
    snapshot s start stop = .next (nonzeroCells s.mem (clamp s.cfg start) (clamp s.cfg stop)) := by
  rw [snapshot, h]

/-- Settles O56: the entries of the snapshot, and that without entries no cell of the range holds more than 0. -/
theorem snapshotHoldsNonzeroCells : Obligations.SnapshotHoldsNonzeroCells := by
  intro s start stop hinv hhalt
  have hmem := mem_nonzeroCells_iff (c := s.cfg) hinv.memWf start stop
  refine ⟨_, snapshot_halted hhalt start stop, hmem, ?_⟩
  rw [List.eq_nil_iff_forall_not_mem]
  constructor
  · intro hnone a hstart hstop hcap
    by_contra hne
    exact hnone _ ((hmem a (s.mem.read a)).2 ⟨hstart, hstop, hcap, rfl, hne⟩)
  · rintro hzero ⟨a, v⟩ hav
    obtain ⟨hstart, hstop, hcap, hread, hv⟩ := (hmem a v).1 hav
    exact hv (hread ▸ hzero a hstart hstop hcap)

/-- A machine that has an image is not launched again (R201). -/
theorem hostLaunch_of_img {s : State} {img : List Byte} (h : s.img = some img) (img' : List Byte) (init : InitData) :
    hostLaunch s img' init = .refused .alreadyLaunched := by
  simp [hostLaunch, h]

/-- Settles O57: the host's operations by `RUN` and the image, which a run keeps. -/
theorem hostLifeCycle : Obligations.HostLifeCycle := by
  refine ⟨fun s hr => ?_, fun s hr => ?_, fun s hi => ?_, fun s img hi hr => ?_, fun c img img' init init' s n =>
    ⟨rfl, fun h => ?_⟩⟩
  · simp [executionResult, readback, snapshot, hr]
  · simp [executionResult, readback, snapshot, hostReset, hr]
  · simp [hostReset, hi]
  · simp [hostReset, hi, hr]
  · obtain ⟨rfl, -⟩ := launch_next h
    exact hostLaunch_of_img (runFor_img n _) img' init'

end Sys2Proof.Machine
end
